-- ==== Sys2Proof/Word.lean ====
section
/-! DEFINITION. The word types of the interface and of the stream (00_scope.md R14, 30_encoding.md R60, R65). -/

namespace Sys2Proof

/-- One stream or buffer byte (R14, R20). -/
abbrev Byte := BitVec 8

/-- A command word or a response word; each crosses the interface whole (R44, R60, R65). -/
abbrev Word := BitVec 64

/-- The 32-bit header word H (20_memory.md R43). -/
abbrev HeaderWord := BitVec 32

end Sys2Proof
end

