-- ==== Sys2Proof/Config.lean ====
section
/-! DEFINITION. The build-time parameters of 00_scope.md section 4, their constraints and the constants derived from them.
They are fixed when the block is built and no command changes them (10_state.md R31), so they stand here and not in State (R20).
Every operation takes them as an argument; the instructions' meanings pass `Config.phfd`, the defaults this hardware takes (log 7). -/

namespace Sys2Proof

/-- The parameters of R7, R9, R10 and R11. -/
structure Config where
  /-- `VERSION` (R7), 8 bits. -/
  version : BitVec 8
  /-- `MAX_PAYLOAD` (R9). -/
  maxPayload : Nat
  /-- `MAX_TYPE_ENC` (R10), the largest type tag BUILD accepts. -/
  maxTypeEnc : Nat
  /-- `BUF_CAP` (R11), the capacity of the circular buffer in bytes. -/
  bufCap : Nat
deriving DecidableEq, Repr

/-- `HDR_LEN` (R8): fixed by the wire format, not a parameter. -/
abbrev Config.hdrLen : Nat := 4

/-- `CHUNK_MAX` (R13, R166): a parameter of the host, on which PHFD does not depend. -/
abbrev Config.chunkMax : Nat := 1024

/-- The constraints of R9, R10 (6-bit unsigned) and R11. -/
abbrev Config.Valid (c : Config) : Prop :=
  1 ≤ c.maxPayload ∧ Config.hdrLen + c.maxPayload - 1 ≤ c.bufCap ∧ c.bufCap ≤ 65535 ∧ c.maxTypeEnc ≤ 63

/-- The defaults this hardware takes (R7, R9, R10, R11). -/
def Config.phfd : Config := { version := 1, maxPayload := 1019, maxTypeEnc := 62, bufCap := 2048 }

/-- `MAX_FRAME_PAYLOAD` (R12): the largest payload PULL delivers. -/
def Config.maxFramePayload (c : Config) : Nat := c.maxPayload - 1

/-- `MAX_FRAME` (R12): the largest frame PULL delivers. -/
def Config.maxFrame (c : Config) : Nat := Config.hdrLen + c.maxFramePayload

/-- `MAX_PACKET` (R12): the largest packet BUILD describes. -/
def Config.maxPacket (c : Config) : Nat := Config.hdrLen + c.maxPayload

end Sys2Proof
end

