-- ==== Sys2Proof/Syntax.lean ====
section
/-! DEFINITION. The seven commands of the opcode map (30_encoding.md R62) with their operands (R64). -/

namespace Sys2Proof

/-- One constructor per row of R62. The operands have exactly the widths of R64. -/
inductive Instr where
  /-- NOP, format Z (R140). -/
  | nop
  /-- PUSH of the byte D, format P (R111). -/
  | push (d : BitVec 8)
  /-- PULL, format Z (R112). -/
  | pull
  /-- VALIDATE with the raw length N and the header word H, format V (R87). -/
  | validate (n : BitVec 16) (h : BitVec 32)
  /-- BUILD with the payload count N, the declared type T and encoding E, format B (R88). -/
  | build (n : BitVec 16) (t : BitVec 8) (e : BitVec 2)
  /-- STATUS, format Z (R141). -/
  | status
  /-- CLEAR, format Z (R142). -/
  | clear
deriving DecidableEq, Repr

end Sys2Proof
end

