-- ==== Sys2Proof/WellFormed.lean ====
section
/-! DEFINITION. What a well-formed command is (30_encoding.md R60, R61, R72). The checks are on the raw 64-bit word: an `Instr`
carries operands of exactly the widths of R64, so every `Instr` is well formed. -/

namespace Sys2Proof

/-- The formats of R61. -/
inductive Format where
  | z | p | v | b
deriving DecidableEq, Repr

/-- The format that OP selects (R62); OP 0x7 to 0xF are reserved and have none. -/
def formatOfOp (op : BitVec 4) : Option Format :=
  if op = 0x0 ∨ op = 0x2 ∨ op = 0x5 ∨ op = 0x6 then some .z
  else if op = 0x1 then some .p
  else if op = 0x3 then some .v
  else if op = 0x4 then some .b
  else none

/-- The fixed-zero bits of a format (R61): Z leaves none free, P leaves W[7:0], V leaves N and H, B leaves N and W[9:0]. -/
def fixedBitsZero (f : Format) (w : Word) : Bool :=
  match f with
  | .z => w.extractLsb' 0 60 == 0#60
  | .p => w.extractLsb' 8 52 == 0#52
  | .v => w.extractLsb' 48 12 == 0#12
  | .b => w.extractLsb' 48 12 == 0#12 && w.extractLsb' 10 22 == 0#22

/-- A raw word spells a command exactly when its OP is defined and its format's fixed-zero bits are zero (R61, R63, R72). -/
def wellFormedWord (w : Word) : Bool :=
  match formatOfOp (w.extractLsb' 60 4) with
  | some f => fixedBitsZero f w
  | none => false

/-- Every `Instr` is well formed: its operands' types are the operand fields of R64, with no value shut out. -/
def Instr.wellFormed : Instr → Bool
  | .nop => true
  | .push _ => true
  | .pull => true
  | .validate _ _ => true
  | .build _ _ _ => true
  | .status => true
  | .clear => true

end Sys2Proof
end

