-- ==== Sys2Proof/Decode.lean ====
section
/-! DEFINITION. The decoder (30_encoding.md R60 to R64), total on 64-bit words, and the encoder written from the same table. -/

namespace Sys2Proof

/-- One row of the opcode map R62. -/
structure OpcodeRow where
  mnemonic : String
  value : Word
  mask : Word
deriving DecidableEq, Repr

def rowNop : OpcodeRow := ⟨"NOP", 0x0000_0000_0000_0000, 0xFFFF_FFFF_FFFF_FFFF⟩
def rowPush : OpcodeRow := ⟨"PUSH", 0x1000_0000_0000_0000, 0xFFFF_FFFF_FFFF_FF00⟩
def rowPull : OpcodeRow := ⟨"PULL", 0x2000_0000_0000_0000, 0xFFFF_FFFF_FFFF_FFFF⟩
def rowValidate : OpcodeRow := ⟨"VALIDATE", 0x3000_0000_0000_0000, 0xFFFF_0000_0000_0000⟩
def rowBuild : OpcodeRow := ⟨"BUILD", 0x4000_0000_0000_0000, 0xFFFF_0000_FFFF_FC00⟩
def rowStatus : OpcodeRow := ⟨"STATUS", 0x5000_0000_0000_0000, 0xFFFF_FFFF_FFFF_FFFF⟩
def rowClear : OpcodeRow := ⟨"CLEAR", 0x6000_0000_0000_0000, 0xFFFF_FFFF_FFFF_FFFF⟩

/-- The opcode map, in the order of R62. -/
def opcodeRows : List OpcodeRow := [rowNop, rowPush, rowPull, rowValidate, rowBuild, rowStatus, rowClear]

/-- A word selects a row exactly when `(CMD & mask) = match` (R63). -/
def OpcodeRow.selects (r : OpcodeRow) (w : Word) : Bool := w &&& r.mask == r.value

/-- Operand D of PUSH: `CMD[7:0]` (R64). -/
def fieldD (w : Word) : BitVec 8 := w.extractLsb' 0 8

/-- Operand N of VALIDATE and BUILD: `CMD[47:32]` (R64). -/
def fieldN (w : Word) : BitVec 16 := w.extractLsb' 32 16

/-- Operand H of VALIDATE: `CMD[31:0]` (R64). -/
def fieldH (w : Word) : BitVec 32 := w.extractLsb' 0 32

/-- Operand T of BUILD: `CMD[7:0]` (R64). -/
def fieldT (w : Word) : BitVec 8 := w.extractLsb' 0 8

/-- Operand E of BUILD: `CMD[9:8]` (R64). -/
def fieldE (w : Word) : BitVec 2 := w.extractLsb' 8 2

/-- Decode (R63): the row the word selects, with its operands assembled as R64 says; `none` for an illegal word. -/
def decode (w : Word) : Option Instr :=
  if rowNop.selects w then some .nop
  else if rowPush.selects w then some (.push (fieldD w))
  else if rowPull.selects w then some .pull
  else if rowValidate.selects w then some (.validate (fieldN w) (fieldH w))
  else if rowBuild.selects w then some (.build (fieldN w) (fieldT w) (fieldE w))
  else if rowStatus.selects w then some .status
  else if rowClear.selects w then some .clear
  else none

/-- A word of the layout R60 from its fields: OP in 63:60, RSV = 0, N in 47:32, W in 31:0. -/
def packWord (op : BitVec 4) (n : BitVec 16) (w : BitVec 32) : Word := op ++ 0#12 ++ n ++ w

/-- The command word of an instruction (R61, R62, R64; the assembler's output of R73). -/
def encode : Instr → Word
  | .nop => packWord 0x0 0 0
  | .push d => packWord 0x1 0 (0#24 ++ d)
  | .pull => packWord 0x2 0 0
  | .validate n h => packWord 0x3 n h
  | .build n t e => packWord 0x4 n (0#22 ++ e ++ t)
  | .status => packWord 0x5 0 0
  | .clear => packWord 0x6 0 0

/-- The row of R62 that an instruction belongs to. -/
def Instr.row : Instr → OpcodeRow
  | .nop => rowNop
  | .push _ => rowPush
  | .pull => rowPull
  | .validate _ _ => rowValidate
  | .build _ _ _ => rowBuild
  | .status => rowStatus
  | .clear => rowClear

/-- The instruction read from a word given as a number whose bit 0 is the word's bit 0. Only the low `nbits` bits count, the bits
above them are zero; no command is longer than 64 bits (R60), so a number with a higher bit set spells none (log 12). -/
def decodeTableWord (nbits w : Nat) : Option Instr :=
  if w % 2 ^ nbits < 2 ^ 64 then decode (BitVec.ofNat 64 (w % 2 ^ nbits)) else none

end Sys2Proof
end

