-- ==== Sys2Proof/Machine/State.lean ====
section
/-! DEFINITION. The state of one PHFD instance (10_state.md R20) as plain data, the two directions of its command/response
interface (00_scope.md R3), the reasons a step can stop, and the state after reset (R34, R180). -/

namespace Sys2Proof.Machine

/-- The buffer BUF (R20, R40) as (index, byte) pairs with strictly rising indices and no entry equal to `unlistedByte`. -/
abbrev Memory := List Host.Cell

/-- What a byte of BUF that nothing has written reads as. The spec leaves it unspecified (R34): DESIGN CHOICE, unsafe, log 1. -/
abbrev unlistedByte : Byte := 0

/-- The canonical form of `Memory`. -/
abbrev Memory.wf (m : Memory) : Prop :=
  m.Pairwise (fun x y => x.1 < y.1) ∧ ∀ x ∈ m, x.2 ≠ unlistedByte

/-- A response (R3, R65): status ST, count RN, word RW and the frame bytes. -/
structure Response where
  st : BitVec 4
  rn : BitVec 16
  rw : BitVec 32
  frame : List Byte
deriving DecidableEq, Repr

/-- What the outside does to the block, between two steps (60_exceptions.md R164, 70_reset_and_hazards.md R180, R182). -/
inductive HostEvent where
  /-- The host issues one command word (R3). -/
  | command (w : Word)
  /-- Reset, taken between commands (R180). `draw` lists bytes BUF happens to hold afterwards: reset leaves BUF unspecified,
  and every contents of BUF is some draw (log 2). -/
  | reset (draw : List Host.Cell)
  /-- Reset arrives while the command `w` is being performed, or `w` arrives during a reset (R182, 93 S6). -/
  | resetDuring (w : Word) (draw : List Host.Cell)
deriving DecidableEq, Repr

/-- One instance: the five state elements of R20, and the interface (`input` and `out` are the model's own, logs 3 and 4). -/
structure State where
  /-- BUF (R20, R21). -/
  buf : Memory
  /-- HEAD (R20, R22): the index of the oldest unconsumed byte. -/
  head : Nat
  /-- COUNT (R20, R23): the number of unconsumed bytes. -/
  count : Nat
  /-- FAULTED (R20, R25). -/
  faulted : Bool
  /-- ERR (R20, R26). -/
  err : BitVec 4
  /-- The events still to come, the next one first. Not state of PHFD (R20): the host's side of the interface. -/
  input : List HostEvent
  /-- The responses returned so far, oldest first. Not state of PHFD (R20, R37): no command reads it. -/
  out : List Response
deriving DecidableEq, Repr

/-- PHFD never stops with a fault: it has no trap mechanism, and every failure is a response (R150, R151). So the type has no
constructor, nobody raises one, and that no step faults holds by type (log 6). -/
inductive Fault
deriving DecidableEq, Repr

/-- Why a step is refused. -/
inductive Refusal where
  /-- An arm of `exec` whose instruction has no meaning yet. Raised by no arm of this model. Safe: the run stops. -/
  | notModelled (mnemonic : String)
  /-- Raised by `step` when the host offers nothing: "the model gives such an instance no step" (R164). Safe: the run stops. -/
  | idle
  /-- Raised by `platformStep` when the platform holds no instance of that number (R163). Safe: the run stops. -/
  | noSuchInstance
deriving DecidableEq, Repr

/-- The state right after reset (R34, R180): HEAD, COUNT, FAULTED and ERR are 0. BUF is unspecified there; nothing is listed
here (log 1). The interface is empty (logs 3, 4). -/
def State.reset : State :=
  { buf := [], head := 0, count := 0, faulted := false, err := 0, input := [], out := [] }

end Sys2Proof.Machine
end

