-- ==== Sys2Proof/Machine/Operands.lean ====
section
/-! DEFINITION. Fields of header bytes and header words, the status codes and the response word: the value-level operations the
commands share (20_memory.md R42, R43; 30_encoding.md R65 to R68). -/

namespace Sys2Proof.Machine

/-- Byte `i` of a byte list (R15). Every use stands behind a length check; past the end it is 0 (log 13). -/
def byteAt (q : List Byte) (i : Nat) : Byte := q.getD i 0

/-- `hdrword(Q) = Q[0] || Q[1] || Q[2] || Q[3]`, byte 0 most significant (R15, R43). -/
def hdrword (q : List Byte) : HeaderWord := byteAt q 0 ++ byteAt q 1 ++ byteAt q 2 ++ byteAt q 3

/-- The big-endian payload length of the header bytes (R42, R71, R84). -/
def lengthField (q : List Byte) : Nat := (byteAt q 2).toNat * 256 + (byteAt q 3).toNat

/-- `H[31:24]`, the version (R43). -/
def headerVersion (h : HeaderWord) : BitVec 8 := h.extractLsb' 24 8

/-- `H[23:22]`, the encoding (R68). -/
def headerEncoding (h : HeaderWord) : BitVec 2 := h.extractLsb' 22 2

/-- `H[21:16]`, the type (R68). -/
def headerType (h : HeaderWord) : BitVec 6 := h.extractLsb' 16 6

/-- `H[15:0]`, the payload length (R43). -/
def headerLength (h : HeaderWord) : BitVec 16 := h.extractLsb' 0 16

/-- A header word from its fields: version, encoding, type, length (R43, R68; the concatenation of R88). -/
def packHeader (v : BitVec 8) (e : BitVec 2) (t : BitVec 6) (n : BitVec 16) : HeaderWord := v ++ e ++ t ++ n

/-- The four wire bytes of a header word, byte 0 first (R42, R43; the expansion SEND of R74). -/
def headerBytes (h : HeaderWord) : List Byte :=
  [h.extractLsb' 24 8, h.extractLsb' 16 8, h.extractLsb' 8 8, h.extractLsb' 0 8]

/-- The status outcomes of R66. -/
inductive Status where
  | ok | noPacket | full | illegal | versionMismatch | oversize | emptyPayload | lengthMismatch | payloadTooLarge
  | typeOutOfRange
deriving DecidableEq, Repr

/-- The code of a status (R66). -/
def statusCode : Status → BitVec 4
  | .ok => 0x0
  | .noPacket => 0x1
  | .full => 0x2
  | .illegal => 0x3
  | .versionMismatch => 0x8
  | .oversize => 0x9
  | .emptyPayload => 0xA
  | .lengthMismatch => 0xB
  | .payloadTooLarge => 0xC
  | .typeOutOfRange => 0xD

/-- The response word `RSP = zext_64(ST) << 60 | zext_64(RN) << 32 | zext_64(RW)` (R65). -/
def responseWord (r : Response) : Word :=
  (r.st.setWidth 64 <<< 60) ||| (r.rn.setWidth 64 <<< 32) ||| r.rw.setWidth 64

end Sys2Proof.Machine
end

