-- ==== Sys2Proof/Machine/Ops.lean ====
section
/-! DEFINITION. The operations over the buffer and the state that the commands share: MemRead and MemWrite, the logical content
Q, consuming, responding, entering and leaving the FAULTED state, and reset. -/

namespace Sys2Proof.Machine

/-- The byte at index `a` of a buffer. -/
def readCells : Memory → Nat → Byte
  | [], _ => unlistedByte
  | (k, v) :: m, a => if k = a then v else readCells m a

/-- A byte put in front of the cells `m`, unless it is what an unlisted index reads as anyway. -/
def consCell (a : Nat) (v : Byte) (m : Memory) : Memory := if v = unlistedByte then m else (a, v) :: m

/-- The buffer with the byte `v` at index `a`, in canonical form again. -/
def writeCells : Memory → Nat → Byte → Memory
  | [], a, v => consCell a v []
  | (k, w) :: m, a, v =>
    if a < k then consCell a v ((k, w) :: m)
    else if a = k then consCell a v m
    else (k, w) :: writeCells m a v

/-- `MemRead(a, 1)` (R16, R41). -/
def memRead (a : Nat) (s : State) : Byte := readCells s.buf a

/-- `MemWrite(a, 1, v)` (R16, R41). -/
def memWrite (a : Nat) (v : Byte) (s : State) : State := { s with buf := writeCells s.buf a v }

/-- The index of logical position `i`: `(HEAD + i) mod BUF_CAP` (R24, R41). -/
def ringIndex (c : Config) (i : Nat) (s : State) : Nat := (s.head + i) % c.bufCap

/-- The first `k` bytes from HEAD on, as `k` single-byte reads (R41; "copy out" of R112). -/
def copyOut (c : Config) (k : Nat) (s : State) : List Byte :=
  (List.range k).map fun i => memRead (ringIndex c i s) s

/-- The logical buffer content Q (R24). -/
def bufferContent (c : Config) (s : State) : List Byte := copyOut c s.count s

/-- Append one byte after Q: the store and the count of R111. -/
def storeByte (c : Config) (d : Byte) (s : State) : State :=
  { memWrite (ringIndex c s.count s) d s with count := s.count + 1 }

/-- Consume the `k` oldest bytes (R22, R23, R112). -/
def consume (c : Config) (k : Nat) (s : State) : State :=
  { s with head := (s.head + k) % c.bufCap, count := s.count - k }

/-- `respond(ST, RN, RW, FRAME)` (R16): the response leaves through the interface, one per command, in order (R188). -/
def respond (st : BitVec 4) (rn : BitVec 16) (rw : BitVec 32) (frame : List Byte) (s : State) : State :=
  { s with out := s.out ++ [⟨st, rn, rw, frame⟩] }

/-- `raise Fail(code)` is `respond(code, 0, 0, [])` (R16); state changes made before it stay made. -/
def failWith (code : BitVec 4) (s : State) : State := respond code 0 0 [] s

/-- Entering the FAULTED state: FAULTED and ERR are all a framer failure saves (R26, R155). -/
def latchFailure (code : BitVec 4) (s : State) : State := { s with faulted := true, err := code }

/-- A framer failure raised by PULL (R112, R155): the one shared entry, the nearest thing PHFD has to taking a trap. -/
def raiseFramerFailure (code : BitVec 4) (s : State) : State := failWith code (latchFailure code s)

/-- A fresh framer: HEAD, COUNT, FAULTED and ERR go to 0 and BUF is not written (R34). CLEAR and reset share it; it is the only
way out of the FAULTED state (R156). -/
def restart (s : State) : State := { s with head := 0, count := 0, faulted := false, err := 0 }

/-- The buffer that a list of cells describes, indices taken mod BUF_CAP, later cells over earlier ones. -/
def bufferOf (c : Config) (draw : List Host.Cell) : Memory :=
  draw.foldl (fun m x => writeCells m (x.1 % c.bufCap) x.2) []

/-- Reset (R180): a fresh framer whose BUF holds whatever `draw` says; no response. -/
def takeReset (c : Config) (draw : List Host.Cell) (s : State) : State :=
  restart { s with buf := bufferOf c draw }

/-- The next event the outside offers, and the state with it taken off the input. -/
def nextEvent (s : State) : Option (HostEvent × State) :=
  match s.input with
  | [] => none
  | e :: rest => some (e, { s with input := rest })

/-- The host offers the command word `w` next. -/
def offerWord (w : Word) (s : State) : State := { s with input := .command w :: s.input }

end Sys2Proof.Machine
end

