-- ==== Sys2Proof/Machine/Flags.lean ====
section
/-! DEFINITION. The boundary decision and what STATUS computes from it (41_framer.md R110; 10_state.md R30, R31). -/

namespace Sys2Proof.Machine

/-- The outcomes of `classify` (R110). -/
inductive Boundary where
  /-- NONE: no packet yet. -/
  | noPacket
  /-- FAIL(code). -/
  | fail (code : BitVec 4)
  /-- TAKE(n): a frame of HDR_LEN + n bytes is at the front. -/
  | take (n : Nat)
deriving DecidableEq, Repr

/-- `classify(Q)` (R110), its checks in the spec's order. -/
def classify (c : Config) (q : List Byte) : Boundary :=
  if q.length < Config.hdrLen then .noPacket
  else if byteAt q 0 ≠ c.version then .fail (statusCode .versionMismatch)
  else if c.maxPayload ≤ lengthField q then .fail (statusCode .oversize)
  else if q.length < Config.hdrLen + lengthField q then .noPacket
  else .take (lengthField q)

/-- READY (R30): computed on demand, never stored. -/
def ready (c : Config) (s : State) : Bool :=
  !s.faulted && decide (classify c (bufferContent c s) ≠ .noPacket)

/-- The STATUS word: `zext_32(ERR) << 4 | zext_32(ready) << 1 | zext_32(FAULTED)` (R31, R141). -/
def statusWord (c : Config) (s : State) : BitVec 32 :=
  (s.err.setWidth 32 <<< 4) ||| ((BitVec.ofBool (ready c s)).setWidth 32 <<< 1) ||| (BitVec.ofBool s.faulted).setWidth 32

end Sys2Proof.Machine
end

