-- ==== Sys2Proof/Machine/Control.lean ====
section
/-! DEFINITION. The control commands NOP, STATUS and CLEAR, and the answer to an illegal word (42_control.md). -/

namespace Sys2Proof.Machine

/-- STATUS for any parameters (R141): COUNT in RN, the status word in RW. -/
def status (c : Config) (s : State) : State :=
  respond (statusCode .ok) (BitVec.ofNat 16 s.count) (statusWord c s) [] s

/-- NOP (R140). -/
def execNop (s : State) : Host.Outcome State Fault Refusal := .next (respond (statusCode .ok) 0 0 [] s)

/-- STATUS (R141). -/
def execStatus (s : State) : Host.Outcome State Fault Refusal := .next (status Config.phfd s)

/-- CLEAR (R142). -/
def execClear (s : State) : Host.Outcome State Fault Refusal := .next (respond (statusCode .ok) 0 0 [] (restart s))

/-- An illegal command word (R63, R143): ILLEGAL, whether faulted or not, and no state change. -/
def answerIllegal (s : State) : Host.Outcome State Fault Refusal := .next (respond (statusCode .illegal) 0 0 [] s)

end Sys2Proof.Machine
end

