-- ==== Sys2Proof/Machine/Framer.lean ====
section
/-! DEFINITION. The frame boundary detector: PUSH and PULL (41_framer.md R111, R112), for any parameters and as this hardware's
instructions. -/

namespace Sys2Proof.Machine

/-- PUSH for any parameters (R111). -/
def push (c : Config) (d : Byte) (s : State) : State :=
  if s.faulted then failWith s.err s
  else if s.count = c.bufCap then respond (statusCode .full) 0 0 [] s
  else respond (statusCode .ok) (BitVec.ofNat 16 (s.count + 1)) 0 [] (storeByte c d s)

/-- The TAKE(n) case of PULL (R112): copy out, consume, validate, deliver. A frame with no payload is consumed and then fails
(90_conflicts.md C1). -/
def deliver (c : Config) (n : Nat) (s : State) : State :=
  if n = 0 then raiseFramerFailure (statusCode .emptyPayload) (consume c (Config.hdrLen + n) s)
  else
    respond (statusCode .ok) (BitVec.ofNat 16 (Config.hdrLen + n)) (hdrword (copyOut c (Config.hdrLen + n) s))
      (copyOut c (Config.hdrLen + n) s) (consume c (Config.hdrLen + n) s)

/-- PULL for any parameters (R112). -/
def pull (c : Config) (s : State) : State :=
  if s.faulted then failWith s.err s
  else
    match classify c (bufferContent c s) with
    | .noPacket => respond (statusCode .noPacket) 0 0 [] s
    | .fail code => raiseFramerFailure code s
    | .take n => deliver c n s

/-- PUSH (R111). -/
def execPush (d : BitVec 8) (s : State) : Host.Outcome State Fault Refusal := .next (push Config.phfd d s)

/-- PULL (R112). -/
def execPull (s : State) : Host.Outcome State Fault Refusal := .next (pull Config.phfd s)

end Sys2Proof.Machine
end

