-- ==== Sys2Proof/Machine/Packet.lean ====
section
/-! DEFINITION. Header validation and generation (VALIDATE R87, BUILD R88), and the Packet value with its host-side functions
(40_packet.md R80 to R86, R89, R90). -/

namespace Sys2Proof.Machine

/-- The checks of VALIDATE in the spec's order (R87), on the header word and the raw length. -/
def validateStatus (c : Config) (n : Nat) (h : HeaderWord) : Status :=
  if headerVersion h ≠ c.version then .versionMismatch
  else if n ≤ Config.hdrLen then .emptyPayload
  else if (headerLength h).toNat ≠ n - Config.hdrLen then .lengthMismatch
  else .ok

/-- VALIDATE for any parameters (R87): it reads and writes no state. -/
def validate (c : Config) (n : BitVec 16) (h : HeaderWord) (s : State) : State :=
  match validateStatus c n.toNat h with
  | .ok => respond (statusCode .ok) n h [] s
  | failure => failWith (statusCode failure) s

/-- The checks of BUILD in the spec's order (R88). -/
def buildStatus (c : Config) (n t : Nat) : Status :=
  if c.maxPayload < n then .payloadTooLarge
  else if n = 0 then .emptyPayload
  else if c.maxTypeEnc < t then .typeOutOfRange
  else .ok

/-- The header BUILD makes: `VERSION[7:0] || E[1:0] || T[5:0] || N[15:0]` (R88). -/
def buildHeader (c : Config) (n : BitVec 16) (t : BitVec 8) (e : BitVec 2) : HeaderWord :=
  packHeader c.version e (t.extractLsb' 0 6) n

/-- BUILD for any parameters (R88): it reads and writes no state. -/
def build (c : Config) (n : BitVec 16) (t : BitVec 8) (e : BitVec 2) (s : State) : State :=
  match buildStatus c n.toNat t.toNat with
  | .ok => respond (statusCode .ok) (BitVec.ofNat 16 (n.toNat + Config.hdrLen)) (buildHeader c n t e) [] s
  | failure => failWith (statusCode failure) s

/-- VALIDATE (R87). -/
def execValidate (n : BitVec 16) (h : BitVec 32) (s : State) : Host.Outcome State Fault Refusal :=
  .next (validate Config.phfd n h s)

/-- BUILD (R88). -/
def execBuild (n : BitVec 16) (t : BitVec 8) (e : BitVec 2) (s : State) : Host.Outcome State Fault Refusal :=
  .next (build Config.phfd n t e s)

/-! ### The Packet value (host-side pure functions over a delivered frame) -/

/-- A frame byte list that is a Packet (R80). -/
abbrev IsPacket (c : Config) (f : List Byte) : Prop :=
  5 ≤ f.length ∧ byteAt f 0 = c.version ∧ lengthField f = f.length - 4 ∧ 1 ≤ lengthField f

/-- `version(f)` (R81). -/
def packetVersion (f : List Byte) : BitVec 8 := byteAt f 0

/-- `encoding(f) = f[1][7:6]` (R82). -/
def packetEncoding (f : List Byte) : BitVec 2 := (byteAt f 1).extractLsb' 6 2

/-- `type(f) = f[1][5:0]` (R83). -/
def packetType (f : List Byte) : BitVec 6 := (byteAt f 1).extractLsb' 0 6

/-- `len(f)` (R84). -/
def packetLength (f : List Byte) : Nat := lengthField f

/-- `data(f) = f[4..|f|)` (R85). -/
def packetData (f : List Byte) : List Byte := f.drop 4

/-- `totalLength(f) = |f|` (R86). -/
def packetTotalLength (f : List Byte) : Nat := f.length

/-- The encoding tags (R69); 2 and 3 are reserved and pass through. -/
inductive EncodingTag where
  | json | custom | reserved2 | reserved3
deriving DecidableEq, Repr

/-- The tag a 2-bit encoding value stands for (R69). -/
def encodingTag (e : BitVec 2) : EncodingTag :=
  if e = 0 then .json else if e = 1 then .custom else if e = 2 then .reserved2 else .reserved3

/-- Outcome of `readInto` (R89): the destination afterwards, and whether it was too small. -/
inductive ReadIntoResult where
  | copied (dst : List Byte)
  | bufferTooSmall (dst : List Byte)
deriving DecidableEq, Repr

/-- `readInto(f, dst)` (R89): all of f over the front of dst, or dst unchanged when it is too small. -/
def readInto (f dst : List Byte) : ReadIntoResult :=
  if dst.length < f.length then .bufferTooSmall dst else .copied (f ++ dst.drop f.length)

/-- Outcome of `intoWriter` (R90): the byte count and the sink, or the sink's own failure, passed on unchanged. -/
inductive IntoWriterResult where
  | written (bytes : Nat) (sink : List Byte)
  | sinkFailed (failure : Nat) (sink : List Byte)
deriving DecidableEq, Repr

/-- `intoWriter(f, sink)` (R90). Whether the sink fails, with what failure, and what it then holds are the sink's: they are the
argument `sinkFailure`, so the sink's state after a failure is any value (log 11). -/
def intoWriter (f sink : List Byte) (sinkFailure : Option (Nat × List Byte)) : IntoWriterResult :=
  match sinkFailure with
  | none => .written f.length (sink ++ f)
  | some (failure, after) => .sinkFailed failure after

end Sys2Proof.Machine
end

