-- ==== Sys2Proof/Machine/Dispatch.lean ====
section
/-! DEFINITION. One arm per command of the opcode map (30_encoding.md R62). -/

namespace Sys2Proof.Machine

def exec (i : Instr) (s : State) : Host.Outcome State Fault Refusal :=
  match i with
  | .nop => Sys2Proof.Machine.execNop s
  | .push d => Sys2Proof.Machine.execPush d s
  | .pull => Sys2Proof.Machine.execPull s
  | .validate n h => Sys2Proof.Machine.execValidate n h s
  | .build n t e => Sys2Proof.Machine.execBuild n t e s
  | .status => Sys2Proof.Machine.execStatus s
  | .clear => Sys2Proof.Machine.execClear s

end Sys2Proof.Machine
end

