-- ==== Sys2Proof/Machine/Step.lean ====
section
/-! DEFINITION. One step: the next event of the outside, taken whole (20_memory.md R47, R50; 60_exceptions.md R164). -/

namespace Sys2Proof.Machine

/-- Perform one command word: decode comes before every other check (R63, R154). -/
def perform (w : Word) (s : State) : Host.Outcome State Fault Refusal :=
  match decode w with
  | some i => exec i s
  | none => answerIllegal s

/-- One step. A command is performed atomically; a reset starts the instance afresh; a command that a reset overtakes has no
effect and no response (R182); with nothing offered there is no step (R164). -/
def step (s : State) : Host.Outcome State Fault Refusal :=
  match nextEvent s with
  | none => .refused .idle
  | some (.command w, t) => perform w t
  | some (.reset draw, t) => .next (takeReset Config.phfd draw t)
  | some (.resetDuring _ draw, t) => .next (takeReset Config.phfd draw t)

/-- The instruction whose bits are `w` offered as the next command word (R3, R44; log 12). -/
def State.withFetchWord (s : State) (nbits w : Nat) : State := offerWord (BitVec.ofNat 64 (w % 2 ^ nbits)) s

end Sys2Proof.Machine
end

