-- ==== Sys2Proof/Machine/Assembler.lean ====
section
/-! DEFINITION. The host's assembler (30_encoding.md R73) and the pseudo-instructions it expands (R74). PHFD never sees them. -/

namespace Sys2Proof.Machine

/-- One source line, its operands as the numbers written (R73, R74). -/
inductive AsmLine where
  | nop
  | push (d : Nat)
  | pull
  | validate (h n : Nat)
  | build (t e n : Nat)
  | status
  | clear
  /-- `PUSHB b0, b1, ..., bk` (R74). -/
  | pushb (bytes : List Nat)
  /-- `SEND <h>, p0, ..., p(n-1)` (R74). -/
  | send (h : Nat) (payload : List Nat)
deriving DecidableEq, Repr

/-- Every operand inside the range of R73. -/
def AsmLine.inRange : AsmLine → Bool
  | .nop => true
  | .push d => decide (d < 256)
  | .pull => true
  | .validate h n => decide (h < 2 ^ 32) && decide (n < 65536)
  | .build t e n => decide (t < 256) && decide (e < 4) && decide (n < 65536)
  | .status => true
  | .clear => true
  | .pushb bs => bs.all fun b => decide (b < 256)
  | .send h ps => decide (h < 2 ^ 32) && ps.all fun b => decide (b < 256)

/-- `PUSHB`: one PUSH per byte, in order (R74). -/
def pushBytes (bs : List Byte) : List Instr := bs.map .push

/-- `SEND`: the four header bytes and the payload, in order (R74). -/
def sendPacket (h : HeaderWord) (payload : List Byte) : List Instr := pushBytes (headerBytes h ++ payload)

/-- The commands a line stands for, operands already known to be in range. -/
def AsmLine.commands : AsmLine → List Instr
  | .nop => [.nop]
  | .push d => [.push (BitVec.ofNat 8 d)]
  | .pull => [.pull]
  | .validate h n => [.validate (BitVec.ofNat 16 n) (BitVec.ofNat 32 h)]
  | .build t e n => [.build (BitVec.ofNat 16 n) (BitVec.ofNat 8 t) (BitVec.ofNat 2 e)]
  | .status => [.status]
  | .clear => [.clear]
  | .pushb bs => pushBytes (bs.map (BitVec.ofNat 8))
  | .send h ps => sendPacket (BitVec.ofNat 32 h) (ps.map (BitVec.ofNat 8))

/-- A line's command words (R73); an operand outside its range is an assembly error, `none`. -/
def assemble (l : AsmLine) : Option (List Word) :=
  if l.inRange then some (l.commands.map encode) else none

/-! ### The textual form (log 14) -/

/-- The tokens of a line: words, commas and equals signs. -/
inductive Token where
  | word (cs : List Char)
  | comma
  | equals
deriving DecidableEq, Repr

/-- The word collected so far, in front of the tokens that follow it. -/
def endWord (acc : List Char) (rest : List Token) : List Token :=
  if acc = [] then rest else .word acc :: rest

/-- Split a line into tokens; a comment starts at a semicolon (R73). -/
def tokens (acc : List Char) : List Char → List Token
  | [] => endWord acc []
  | ch :: cs =>
    if ch = ';' then endWord acc []
    else if ch = ' ' ∨ ch = '\t' then endWord acc (tokens [] cs)
    else if ch = ',' then endWord acc (.comma :: tokens [] cs)
    else if ch = '=' then endWord acc (.equals :: tokens [] cs)
    else tokens (acc ++ [ch]) cs

/-- The value of one digit in base 10 or 16. -/
def digitValue (base : Nat) (ch : Char) : Option Nat :=
  let n := ch.toNat
  let v :=
    if 48 ≤ n ∧ n ≤ 57 then n - 48
    else if 65 ≤ n ∧ n ≤ 70 then n - 55
    else if 97 ≤ n ∧ n ≤ 102 then n - 87
    else 16
  if v < base then some v else none

/-- A run of digits; an underscore only groups digits (00_scope.md R14). -/
def digits (base acc : Nat) : List Char → Option Nat
  | [] => some acc
  | '_' :: cs => digits base acc cs
  | ch :: cs =>
    match digitValue base ch with
    | some v => digits base (acc * base + v) cs
    | none => none

/-- A number: decimal, or hex after 0x (R73). -/
def number : List Char → Option Nat
  | '0' :: 'x' :: ch :: cs =>
    match digitValue 16 ch with
    | some v => digits 16 v cs
    | none => none
  | ch :: cs =>
    match digitValue 10 ch with
    | some v => digits 10 v cs
    | none => none
  | [] => none

/-- Numbers separated by commas, at least one. -/
def numberList : List Token → Option (List Nat)
  | [.word w] => (number w).map fun n => [n]
  | .word w :: .comma :: rest =>
    match number w, numberList rest with
    | some n, some ns => some (n :: ns)
    | _, _ => none
  | _ => none

/-- The operands of a line of two numbers. -/
def twoNumbers (ts : List Token) (f : Nat → Nat → AsmLine) : Option AsmLine :=
  match numberList ts with
  | some [a, b] => some (f a b)
  | _ => none

/-- The operands of BUILD, each after its name (R73). -/
def buildOperands : List Token → Option AsmLine
  | [.word ['t', 'y', 'p', 'e'], .equals, .word t, .comma, .word ['e', 'n', 'c'], .equals, .word e, .comma, .word ['n'], .equals, .word n] =>
    match number t, number e, number n with
    | some t, some e, some n => some (.build t e n)
    | _, _, _ => none
  | _ => none

/-- A line's tokens as a source line. -/
def parseTokens : List Token → Option AsmLine
  | [.word ['N', 'O', 'P']] => some .nop
  | [.word ['P', 'U', 'S', 'H'], .word d] => (number d).map .push
  | [.word ['P', 'U', 'L', 'L']] => some .pull
  | .word ['V', 'A', 'L', 'I', 'D', 'A', 'T', 'E'] :: ts => twoNumbers ts .validate
  | .word ['B', 'U', 'I', 'L', 'D'] :: ts => buildOperands ts
  | [.word ['S', 'T', 'A', 'T', 'U', 'S']] => some .status
  | [.word ['C', 'L', 'E', 'A', 'R']] => some .clear
  | .word ['P', 'U', 'S', 'H', 'B'] :: ts => (numberList ts).map .pushb
  | .word ['S', 'E', 'N', 'D'] :: ts =>
    match numberList ts with
    | some (h :: ps) => some (.send h ps)
    | _ => none
  | _ => none

/-- Outcome of assembling one line of text. -/
inductive AsmResult where
  /-- A blank line or a comment: no command. -/
  | blank
  /-- The command words of the line, in order. -/
  | words (ws : List Word)
  /-- An assembly error (R73): no command, or an operand outside its range. -/
  | error
deriving DecidableEq, Repr

/-- Assemble one line of text (R73, R74). -/
def assembleText (line : List Char) : AsmResult :=
  match tokens [] line with
  | [] => .blank
  | ts =>
    match parseTokens ts with
    | none => .error
    | some l =>
      match assemble l with
      | some ws => .words ws
      | none => .error

end Sys2Proof.Machine
end

