-- ==== Sys2Proof/Machine/Platform.lean ====
section
/-! DEFINITION. A platform of independent instances (10_state.md R35, 60_exceptions.md R163). -/

namespace Sys2Proof.Machine

/-- One step of instance `k` of a platform (R17, R35, R163): each instance has its own state and its own command stream, and no
command addresses another instance. Which instance moves next is the platform's, so it is an argument (log 8). -/
def platformStep (k : Nat) (p : List State) : Host.Outcome (List State) Fault Refusal :=
  match p[k]? with
  | none => .refused .noSuchInstance
  | some s =>
    match step s with
    | .next t => .next (p.set k t)
    | .fault r => .fault r
    | .refused r => .refused r

end Sys2Proof.Machine
end

