-- ==== Sys2Proof/Safety.lean ====
section
/-! DEFINITION. What the claims are stated in: the state invariant (10_state.md R27), runs of commands, the stream outcome of
41_framer.md R115, the host's drain (R74, R165), and the list model of R24. -/

namespace Sys2Proof.Machine

/-- The next state of an outcome, if it is one. -/
def nextOf {σ φ ρ : Type} : Host.Outcome σ φ ρ → Option σ
  | .next s => some s
  | .fault _ => none
  | .refused _ => none

/-- What holds after every command (R27): FAULTED and ERR agree, ERR is one of 0x0, 0x8, 0x9, 0xA, COUNT and HEAD are in range;
and the model's memory keeps its canonical form inside BUF's address range (R40). -/
abbrev Inv (c : Config) (s : State) : Prop :=
  (s.faulted = true ↔ s.err ≠ 0) ∧ (s.err = 0x0 ∨ s.err = 0x8 ∨ s.err = 0x9 ∨ s.err = 0xA) ∧
    s.count ≤ c.bufCap ∧ s.head < c.bufCap ∧ s.buf.wf ∧ ∀ x ∈ s.buf, x.1 < c.bufCap

/-- Perform commands one after another (R50). -/
def runCommands : List Instr → State → Host.Outcome State Fault Refusal
  | [], s => .next s
  | i :: is, s =>
    match exec i s with
    | .next t => runCommands is t
    | .fault r => .fault r
    | .refused r => .refused r

/-- The five state elements of R20 agree. -/
abbrev SameFramer (s t : State) : Prop :=
  t.buf = s.buf ∧ t.head = s.head ∧ t.count = s.count ∧ t.faulted = s.faulted ∧ t.err = s.err

/-- The two commands of the framer (R19). -/
def isFramerCommand : Instr → Bool
  | .push _ => true
  | .pull => true
  | _ => false

/-- The commands that change no state (R36, R48): NOP, VALIDATE, BUILD and STATUS. -/
def isStateless : Instr → Bool
  | .nop => true
  | .push _ => false
  | .pull => false
  | .validate _ _ => true
  | .build _ _ _ => true
  | .status => true
  | .clear => false

/-- The bytes a command sequence pushes, in order (the S of R115). -/
def pushedBytes : List Instr → List Byte
  | [] => []
  | .push d :: is => d :: pushedBytes is
  | _ :: is => pushedBytes is

/-- The pushed bytes that were answered OK, commands and responses side by side. -/
def acceptedBytes : List Instr → List Response → List Byte
  | .push d :: is, r :: rs => if r.st = statusCode .ok then d :: acceptedBytes is rs else acceptedBytes is rs
  | _ :: is, _ :: rs => acceptedBytes is rs
  | _, _ => []

/-- The frames that responses deliver, in order: FRAME is empty except in a successful PULL (R65). -/
def deliveredFrames (rs : List Response) : List (List Byte) := (rs.map (·.frame)).filter fun f => f ≠ []

/-- The outcome of a byte stream (R115): the frames, the last status, and what is left. -/
structure StreamOutcome where
  frames : List (List Byte)
  last : BitVec 4
  rest : List Byte
deriving DecidableEq, Repr

/-- The loop of R115, with fuel: every round but the last takes at least five bytes. -/
def streamLoop (c : Config) : Nat → List Byte → StreamOutcome
  | 0, q => ⟨[], statusCode .noPacket, q⟩
  | fuel + 1, q =>
    match classify c q with
    | .noPacket => ⟨[], statusCode .noPacket, q⟩
    | .fail code => ⟨[], code, q⟩
    | .take 0 => ⟨[], statusCode .emptyPayload, q.drop 4⟩
    | .take (n + 1) =>
      let r := streamLoop c fuel (q.drop (4 + (n + 1)))
      ⟨q.take (4 + (n + 1)) :: r.frames, r.last, r.rest⟩

/-- `frames(S)` of R115. -/
def streamFrames (c : Config) (s : List Byte) : StreamOutcome := streamLoop c (s.length + 1) s

/-- The last response returned. -/
def lastResponse (s : State) : Option Response := s.out.getLast?

/-- DRAIN (R74): PULL until the status is not OK, at most `fuel` times. -/
def drainLoop (c : Config) : Nat → State → State
  | 0, s => s
  | fuel + 1, s =>
    if (lastResponse (pull c s)).map (·.st) = some (statusCode .ok) then drainLoop c fuel (pull c s) else pull c s

/-- DRAIN; a buffer of COUNT bytes never needs more than COUNT + 1 PULLs. -/
def drain (c : Config) (s : State) : State := drainLoop c (s.count + 1) s

/-- The list model of R24: the framer state as Q alone, beside the flags and the interface. -/
structure ListState where
  q : List Byte
  faulted : Bool
  err : BitVec 4
  input : List HostEvent
  out : List Response
deriving DecidableEq, Repr

/-- What of a state is observable (R24, R33): everything but HEAD and the bytes of BUF outside Q. -/
def observe (c : Config) (s : State) : ListState :=
  { q := bufferContent c s, faulted := s.faulted, err := s.err, input := s.input, out := s.out }

/-- A response of the list model. -/
def ListState.respond (st : BitVec 4) (rn : BitVec 16) (rw : BitVec 32) (frame : List Byte) (l : ListState) : ListState :=
  { l with out := l.out ++ [⟨st, rn, rw, frame⟩] }

/-- READY of the list model (R30). -/
def ListState.ready (c : Config) (l : ListState) : Bool := !l.faulted && decide (classify c l.q ≠ .noPacket)

/-- The commands over the list model: PUSH of d is `Q <- Q ++ [d]`, consuming k bytes is `Q <- Q[k..|Q|)` (R24). -/
def ListState.perform (c : Config) (i : Instr) (l : ListState) : ListState :=
  match i with
  | .nop => l.respond 0x0 0 0 []
  | .push d =>
    if l.faulted then l.respond l.err 0 0 []
    else if l.q.length = c.bufCap then l.respond 0x2 0 0 []
    else ListState.respond 0x0 (BitVec.ofNat 16 (l.q.length + 1)) 0 [] { l with q := l.q ++ [d] }
  | .pull =>
    if l.faulted then l.respond l.err 0 0 []
    else
      match classify c l.q with
      | .noPacket => l.respond 0x1 0 0 []
      | .fail code => ListState.respond code 0 0 [] { l with faulted := true, err := code }
      | .take 0 => ListState.respond 0xA 0 0 [] { l with q := l.q.drop 4, faulted := true, err := 0xA }
      | .take (n + 1) =>
        ListState.respond 0x0 (BitVec.ofNat 16 (4 + (n + 1))) (hdrword (l.q.take (4 + (n + 1)))) (l.q.take (4 + (n + 1)))
          { l with q := l.q.drop (4 + (n + 1)) }
  | .validate n h =>
    match validateStatus c n.toNat h with
    | .ok => l.respond 0x0 n h []
    | failure => l.respond (statusCode failure) 0 0 []
  | .build n t e =>
    match buildStatus c n.toNat t.toNat with
    | .ok => l.respond 0x0 (BitVec.ofNat 16 (n.toNat + 4)) (buildHeader c n t e) []
    | failure => l.respond (statusCode failure) 0 0 []
  | .status =>
    l.respond 0x0 (BitVec.ofNat 16 l.q.length)
      (BitVec.ofNat 32 (16 * l.err.toNat + 2 * (l.ready c).toNat + l.faulted.toNat)) []
  | .clear => ListState.respond 0x0 0 0 [] { l with q := [], faulted := false, err := 0x0 }

end Sys2Proof.Machine
end

