-- ==== Sys2Proof/Certificates/Slice0/Obligations.lean ====
section
/-! DEFINITION. The statements for the provers. Each docstring names the rule of spec/ it formalises. Literals (1, 1019, 62, 2048,
1022) are the defaults of 00_scope.md R7, R9, R10, R11 and R12 that this hardware takes. -/

open Sys2Proof Sys2Proof.Machine

/-! ### The step -/

/-- A command word that decodes to i is performed as i (R50, R63, R164): step takes it off the input and adds nothing else. -/
def Obligations.StepRunsDecodedInstruction : Prop :=
  ∀ (s : State) (w : Word) (rest : List HostEvent) (i : Instr),
    s.input = .command w :: rest → decode w = some i → step s = exec i { s with input := rest }

/-- A word that no row of the opcode map selects is answered ILLEGAL and changes no state, faulted or not (R143). -/
def Obligations.StepAnswersIllegalWord : Prop :=
  ∀ (s : State) (w : Word) (rest : List HostEvent),
    s.input = .command w :: rest → (∀ r ∈ opcodeRows, w &&& r.mask ≠ r.value) →
      step s = .next { s with input := rest, out := s.out ++ [⟨0x3, 0, 0, []⟩] }

/-- Every offered event is taken in one step; an instance to which nothing is offered has no step (R164, R185). -/
def Obligations.OfferedEventIsTakenIdleHasNoStep : Prop :=
  ∀ s : State,
    (s.input = [] → step s = .refused .idle) ∧
      ∀ e rest, s.input = e :: rest → ∃ t, step s = .next t ∧ t.input = rest

/-- Every command gets exactly one response, after the earlier ones, and a FRAME arrives whole with it: a PULL answered OK in a
state that meets the invariant delivers its RN bytes, more than four, and every other response has an empty FRAME (R188). A reset
gives no response (R180), nor does a command that a reset overtakes (R182). -/
def Obligations.OneResponsePerCommandInOrder : Prop :=
  ∀ s t : State, step s = .next t →
    (∀ w rest, s.input = .command w :: rest → ∃ r : Response, t.out = s.out ++ [r] ∧
      (Inv Config.phfd s → decode w = some .pull → r.st = 0x0 → 4 < r.rn.toNat ∧ r.frame.length = r.rn.toNat) ∧
      (decode w ≠ some .pull ∨ r.st ≠ 0x0 → r.frame = [])) ∧
    (∀ draw rest, s.input = .reset draw :: rest → t.out = s.out) ∧
    ∀ w draw rest, s.input = .resetDuring w draw :: rest → t.out = s.out

/-- Command words offered one after another run as the commands they encode, in issue order (R50). -/
def Obligations.OfferedWordsRunAsCommands : Prop :=
  ∀ (cmds : List Instr) (s t : State) (rest : List HostEvent),
    runCommands cmds { s with input := rest } = .next t →
      Host.Core.run Sys2Proof.core cmds.length { s with input := cmds.map (fun i => .command (encode i)) ++ rest } = .next t

/-! ### Encoding -/

/-- Which words decode to which command, as numbers: the opcode in the top four bits, the operands where R64 puts them (R62, R64). -/
def Obligations.DecodeReadsExactlyTheOpcodeMap : Prop :=
  ∀ w : Word,
    (decode w = some .nop ↔ w.toNat = 0) ∧
    (∀ d, decode w = some (.push d) ↔ w.toNat = 1 * 2 ^ 60 + d.toNat) ∧
    (decode w = some .pull ↔ w.toNat = 2 * 2 ^ 60) ∧
    (∀ n h, decode w = some (.validate n h) ↔ w.toNat = 3 * 2 ^ 60 + n.toNat * 2 ^ 32 + h.toNat) ∧
    (∀ n t e, decode w = some (.build n t e) ↔
      w.toNat = 4 * 2 ^ 60 + n.toNat * 2 ^ 32 + e.toNat * 2 ^ 8 + t.toNat) ∧
    (decode w = some .status ↔ w.toNat = 5 * 2 ^ 60) ∧
    (decode w = some .clear ↔ w.toNat = 6 * 2 ^ 60)

/-- A word selects a command if and only if (CMD & mask) = match for its row, at most one row matches, and the words that spell a
command are those whose fixed-zero bits are zero (R61, R63, R72). -/
def Obligations.DecodeSelectsTheOneMatchingRow : Prop :=
  ∀ w : Word,
    (∀ i, decode w = some i → w &&& i.row.mask = i.row.value) ∧
    (∀ r ∈ opcodeRows, w &&& r.mask = r.value → ∃ i, decode w = some i ∧ i.row = r) ∧
    (∀ r ∈ opcodeRows, ∀ r' ∈ opcodeRows, w &&& r.mask = r.value → w &&& r'.mask = r'.value → r = r') ∧
    (decode w = none ↔ wellFormedWord w = false)

/-- Decode of encode is the instruction, at every operand value, and every legal word is the encoding of what it decodes to. -/
def Obligations.DecodeOfEncodeIsTheInstruction : Prop :=
  (∀ i : Instr, i.wellFormed = true → decode (encode i) = some i) ∧
    ∀ (w : Word) (i : Instr), decode w = some i → encode i = w

/-- Words written out in the spec's rules and vectors decode to the commands they stand for. -/
def Obligations.SpecWordsDecodeAsListed : Prop :=
  decode 0x0000_0000_0000_0000 = some .nop ∧
  decode 0x1000_0000_0000_0045 = some (.push 0x45) ∧
  decode 0x2000_0000_0000_0000 = some .pull ∧
  decode 0x3000_0007_0145_0003 = some (.validate 7 0x01450003) ∧
  decode 0x4000_0003_0000_0105 = some (.build 3 5 1) ∧
  decode 0x5000_0000_0000_0000 = some .status ∧
  decode 0x6000_0000_0000_0000 = some .clear ∧
  decode 0x7000_0000_0000_0000 = none ∧ decode 0x1000_0000_0000_0101 = none ∧
  decode 0x3001_0007_0145_0003 = none ∧ decode 0x4000_0003_0000_0405 = none

/-- The assembler never produces an illegal word, and each line form assembles to the words of R73 and R74, as numbers, exactly
when its operands are in the ranges of R73; outside them it is an error. (Details of the text form: log 14.) -/
def Obligations.AssemblerNeverMakesAnIllegalWord : Prop :=
  (∀ (line : List Char) (ws : List Word), assembleText line = .words ws → ∀ w ∈ ws, ∃ i, decode w = some i) ∧
  assemble .nop = some [BitVec.ofNat 64 0] ∧
  (∀ d, assemble (.push d) = if d < 256 then some [BitVec.ofNat 64 (2 ^ 60 + d)] else none) ∧
  assemble .pull = some [BitVec.ofNat 64 (2 * 2 ^ 60)] ∧
  (∀ h n, assemble (.validate h n) =
    if h < 2 ^ 32 ∧ n < 65536 then some [BitVec.ofNat 64 (3 * 2 ^ 60 + n * 2 ^ 32 + h)] else none) ∧
  (∀ t e n, assemble (.build t e n) = if t < 256 ∧ e < 4 ∧ n < 65536
    then some [BitVec.ofNat 64 (4 * 2 ^ 60 + n * 2 ^ 32 + e * 2 ^ 8 + t)] else none) ∧
  assemble .status = some [BitVec.ofNat 64 (5 * 2 ^ 60)] ∧
  assemble .clear = some [BitVec.ofNat 64 (6 * 2 ^ 60)] ∧
  (∀ bs, assemble (.pushb bs) =
    if ∀ b ∈ bs, b < 256 then some (bs.map fun b => BitVec.ofNat 64 (2 ^ 60 + b)) else none) ∧
  ∀ h ps, assemble (.send h ps) = if h < 2 ^ 32 ∧ ∀ b ∈ ps, b < 256
    then some (([h / 2 ^ 24, h / 2 ^ 16 % 256, h / 2 ^ 8 % 256, h % 256] ++ ps).map fun b => BitVec.ofNat 64 (2 ^ 60 + b))
    else none

/-- A line of text is read as R73 and R74 write it: decimal and hex numbers, and each line form with its operands, whatever spells
the numbers (`num`) and whatever comment stands behind it. (Blanks, hex case, underscores and separators: log 14.) -/
def Obligations.AssemblerReadsEachLineForm : Prop :=
  (∀ ds : List Nat, ds ≠ [] → (∀ d ∈ ds, d < 10) →
    number (ds.map fun d => Char.ofNat (48 + d)) = some (ds.foldl (fun a d => 10 * a + d) 0)) ∧
  (∀ (ds : List Nat) (letter : Nat), ds ≠ [] → (∀ d ∈ ds, d < 16) → letter = 55 ∨ letter = 87 →
    number (['0', 'x'] ++ ds.map fun d => Char.ofNat (if d < 10 then 48 + d else letter + d)) =
      some (ds.foldl (fun a d => 16 * a + d) 0)) ∧
  ∀ (num : Nat → List Char) (comment : List Char),
    (∀ n, number (num n) = some n ∧ ∀ ch ∈ num n, ch ∉ [' ', '\t', ',', '=', ';']) →
      assembleText (';' :: comment) = .blank ∧
      assembleText ("NOP".toList ++ ';' :: comment) = .words [BitVec.ofNat 64 0] ∧
      (∀ d, assembleText ("PUSH ".toList ++ num d ++ ';' :: comment) =
        if d < 256 then .words [BitVec.ofNat 64 (2 ^ 60 + d)] else .error) ∧
      assembleText ("PULL".toList ++ ';' :: comment) = .words [BitVec.ofNat 64 (2 * 2 ^ 60)] ∧
      (∀ h n, assembleText ("VALIDATE ".toList ++ num h ++ ", ".toList ++ num n ++ ';' :: comment) =
        if h < 2 ^ 32 ∧ n < 65536 then .words [BitVec.ofNat 64 (3 * 2 ^ 60 + n * 2 ^ 32 + h)] else .error) ∧
      (∀ t e n, assembleText ("BUILD type=".toList ++ num t ++ ", enc=".toList ++ num e ++ ", n=".toList ++ num n ++
          ';' :: comment) = if t < 256 ∧ e < 4 ∧ n < 65536
        then .words [BitVec.ofNat 64 (4 * 2 ^ 60 + n * 2 ^ 32 + e * 2 ^ 8 + t)] else .error) ∧
      assembleText ("STATUS".toList ++ ';' :: comment) = .words [BitVec.ofNat 64 (5 * 2 ^ 60)] ∧
      assembleText ("CLEAR".toList ++ ';' :: comment) = .words [BitVec.ofNat 64 (6 * 2 ^ 60)] ∧
      (∀ b bs, assembleText ("PUSHB ".toList ++ [','].intercalate ((b :: bs).map num) ++ ';' :: comment) =
        if ∀ x ∈ b :: bs, x < 256 then .words ((b :: bs).map fun x => BitVec.ofNat 64 (2 ^ 60 + x)) else .error) ∧
      ∀ h ps, assembleText ("SEND ".toList ++ [','].intercalate ((h :: ps).map num) ++ ';' :: comment) =
        if h < 2 ^ 32 ∧ ∀ x ∈ ps, x < 256 then .words (([h / 2 ^ 24, h / 2 ^ 16 % 256, h / 2 ^ 8 % 256, h % 256] ++ ps).map
          fun x => BitVec.ofNat 64 (2 ^ 60 + x)) else .error

/-- The response word as a number: RSP = ST<<60 | RN<<32 | RW, so bits 59:48 are zero; FRAME is empty except in a successful PULL,
where it holds the frame's RN = 4 + len bytes, the first of Q; a failure response (ST[3] = 1) has RN = 0, RW = 0 and an empty
FRAME (R65). In states that meet the invariant, which rules out an ERR that is no failure code. -/
def Obligations.ResponseLayoutAndFrame : Prop :=
  (∀ r : Response, (responseWord r).toNat = r.st.toNat * 2 ^ 60 + r.rn.toNat * 2 ^ 32 + r.rw.toNat) ∧
    ∀ (s t : State) (r : Response) (w : Word) (rest : List HostEvent), Inv Config.phfd s →
      s.input = .command w :: rest → step s = .next t → t.out = s.out ++ [r] →
        (r.frame ≠ [] → decode w = some .pull ∧ r.st = 0x0) ∧
        (decode w = some .pull → r.st = 0x0 → 4 < r.frame.length ∧ r.frame.length = r.rn.toNat ∧
          r.rn.toNat = 4 + lengthField (bufferContent Config.phfd s) ∧ r.frame = (bufferContent Config.phfd s).take r.rn.toNat) ∧
        (8 ≤ r.st.toNat → r.rn = 0 ∧ r.rw = 0 ∧ r.frame = [])

/-- Only the defined status codes are returned: never 0x4 to 0x7, 0xE or 0xF (R66, R72). -/
def Obligations.OnlyDefinedStatusCodesAreReturned : Prop :=
  ∀ (s t : State) (r : Response), Inv Config.phfd s → step s = .next t → t.out = s.out ++ [r] →
    r.st.toNat ∈ [0x0, 0x1, 0x2, 0x3, 0x8, 0x9, 0xA, 0xB, 0xC, 0xD]

/-! ### Reset -/

/-- Reset makes HEAD, COUNT, FAULTED and ERR zero and gives no response; and it leaves every byte of BUF unspecified: whatever 2048
bytes are asked for, some reset event leaves exactly them (R180). That the event carries the bytes as a list `draw` is the model's
own choice (log 2). -/
def Obligations.ResetStartsAFreshFramer : Prop :=
  ∀ (s : State) (rest : List HostEvent),
    (∀ draw, ∃ t, step { s with input := .reset draw :: rest } = .next t ∧ t.head = 0 ∧ t.count = 0 ∧ t.faulted = false ∧
      t.err = 0 ∧ t.out = s.out ∧ t.input = rest) ∧
    ∀ contents : Nat → Byte, ∃ draw t, step { s with input := .reset draw :: rest } = .next t ∧
      ∀ a < 2048, memRead a t = contents a

/-- A reset that arrives while a command is being performed: the command has no effect and no response, and the state afterwards
is the reset state (R182). -/
def Obligations.ResetOvertakesACommand : Prop :=
  ∀ (s : State) (w : Word) (draw : List Host.Cell) (rest : List HostEvent), s.input = .resetDuring w draw :: rest →
    step s = step { s with input := .reset draw :: rest } ∧
      ∃ t, step s = .next t ∧ t.head = 0 ∧ t.count = 0 ∧ t.faulted = false ∧ t.err = 0 ∧ t.out = s.out

/-- The state after reset, and what STATUS then answers (R34). -/
def Obligations.ResetStateReadsAllZero : Prop :=
  State.reset.head = 0 ∧ State.reset.count = 0 ∧ State.reset.faulted = false ∧ State.reset.err = 0 ∧
    bufferContent Config.phfd State.reset = [] ∧
    ∃ t r, exec .status State.reset = .next t ∧ t.out = [r] ∧ responseWord r = 0

/-! ### Control commands -/

/-- NOP: its word; it answers OK and changes nothing else, faulted or not (R140). -/
def Obligations.NopOnlyAnswersOk : Prop :=
  (∀ w : Word, w &&& 0xFFFF_FFFF_FFFF_FFFF = 0x0000_0000_0000_0000 → decode w = some .nop) ∧
  ∀ s : State, exec .nop s = .next { s with out := s.out ++ [⟨0x0, 0, 0, []⟩] }

/-- STATUS: its word; it answers COUNT, and ERR in RW[7:4], READY in RW[1], FAULTED in RW[0]; it changes nothing else (R141). -/
def Obligations.StatusReportsCountAndFlags : Prop :=
  (∀ w : Word, w &&& 0xFFFF_FFFF_FFFF_FFFF = 0x5000_0000_0000_0000 → decode w = some .status) ∧
  ∀ s : State, ∃ rw : BitVec 32,
    exec .status s = .next { s with out := s.out ++ [⟨0x0, BitVec.ofNat 16 s.count, rw, []⟩] } ∧
    rw.toNat = 16 * s.err.toNat +
      2 * (if s.faulted = false ∧ classify Config.phfd (bufferContent Config.phfd s) ≠ .noPacket then 1 else 0) +
      (if s.faulted = true then 1 else 0)

/-- READY = 1 means that a PULL issued now returns a frame or a failure, not NONE (R30). -/
def Obligations.ReadyForecastsPull : Prop :=
  ∀ s : State, ∃ (t : State) (r : Response), exec .pull s = .next t ∧ t.out = s.out ++ [r] ∧
    (ready Config.phfd s = true ↔ s.faulted = false ∧ r.st ≠ 0x1)

/-- CLEAR: its word; HEAD, COUNT, FAULTED and ERR go to 0, Q is empty, BUF is not written; a second CLEAR changes no more; no
other command leaves the FAULTED state (R142). -/
def Obligations.ClearStartsAFreshFramer : Prop :=
  (∀ w : Word, w &&& 0xFFFF_FFFF_FFFF_FFFF = 0x6000_0000_0000_0000 → decode w = some .clear) ∧
  (∀ (i : Instr) (s t : State), exec i s = .next t → s.faulted = true → t.faulted = false → i = .clear) ∧
  ∀ s : State, ∃ t, exec .clear s = .next t ∧
    t = { s with head := 0, count := 0, faulted := false, err := 0, out := s.out ++ [⟨0x0, 0, 0, []⟩] } ∧
    bufferContent Config.phfd t = [] ∧ ∃ u, exec .clear t = .next u ∧ SameFramer t u

/-- NOP, STATUS, VALIDATE and BUILD change no state element, and issued again they answer the same (R36, R48). -/
def Obligations.StatelessCommandsAreIdempotent : Prop :=
  ∀ (i : Instr) (s : State), isStateless i = true → ∃ (t u : State) (r : Response), exec i s = .next t ∧ exec i t = .next u ∧
    SameFramer s t ∧ SameFramer t u ∧ t.input = s.input ∧ t.out = s.out ++ [r] ∧ u.out = s.out ++ [r, r]

/-! ### VALIDATE and BUILD -/

/-- VALIDATE: its words; version, then N <= 4, then the length field against N - 4; no state change (R87). -/
def Obligations.ValidateChecksVersionThenLength : Prop :=
  (∀ w : Word, w &&& 0xFFFF_0000_0000_0000 = 0x3000_0000_0000_0000 →
    decode w = some (.validate (w.extractLsb' 32 16) (w.extractLsb' 0 32))) ∧
  ∀ (n : BitVec 16) (h : BitVec 32) (s : State),
    exec (.validate n h) s = .next { s with out := s.out ++ [
      if h.toNat / 2 ^ 24 ≠ 1 then ⟨0x8, 0, 0, []⟩
      else if n.toNat ≤ 4 then ⟨0xA, 0, 0, []⟩
      else if h.toNat % 2 ^ 16 + 4 ≠ n.toNat then ⟨0xB, 0, 0, []⟩
      else ⟨0x0, n, h, []⟩] }

/-- BUILD: its words; N > 1019, then N = 0, then T > 62; else the header VERSION, E, T, N and the total N + 4; no state change (R88). -/
def Obligations.BuildMakesTheHeaderWord : Prop :=
  (∀ w : Word, w &&& 0xFFFF_0000_FFFF_FC00 = 0x4000_0000_0000_0000 →
    decode w = some (.build (w.extractLsb' 32 16) (w.extractLsb' 0 8) (w.extractLsb' 8 2))) ∧
  ∀ (n : BitVec 16) (t : BitVec 8) (e : BitVec 2) (s : State),
    exec (.build n t e) s = .next { s with out := s.out ++ [
      if 1019 < n.toNat then ⟨0xC, 0, 0, []⟩
      else if n.toNat = 0 then ⟨0xA, 0, 0, []⟩
      else if 62 < t.toNat then ⟨0xD, 0, 0, []⟩
      else ⟨0x0, BitVec.ofNat 16 (n.toNat + 4),
        BitVec.ofNat 32 (1 * 2 ^ 24 + e.toNat * 2 ^ 22 + t.toNat * 2 ^ 16 + n.toNat), []⟩] }

/-- The round trip of R91, for every choice of the parameters: a header that BUILD makes passes VALIDATE unchanged and carries
the same encoding, type and length. (VALIDATE's operand N + 4 has 16 bits; with the default MAX_PAYLOAD it always fits.) -/
def Obligations.BuildThenValidateRoundTrip : Prop :=
  ∀ (c : Config) (n : BitVec 16) (t : BitVec 8) (e : BitVec 2) (s : State), c.Valid →
    t.toNat ≤ c.maxTypeEnc → 1 ≤ n.toNat → n.toNat ≤ c.maxPayload → n.toNat + 4 < 2 ^ 16 →
      ∃ rn h, (build c n t e s).out = s.out ++ [⟨0x0, rn, h, []⟩] ∧
        (validate c (n + 4) h s).out = s.out ++ [⟨0x0, n + 4, h, []⟩] ∧
        h.extractLsb' 22 2 = e ∧ (h.extractLsb' 16 6).toNat = t.toNat ∧ h.extractLsb' 0 16 = n

/-! ### PUSH and PULL -/

/-- PUSH: its words; echo of ERR while FAULTED, FULL when COUNT = 2048, else the byte goes to (HEAD + COUNT) mod 2048 and COUNT rises by 1;
every other byte of BUF and everything else is unchanged (R111). A multi-byte push is its PUSHes
in order. The memory is in its canonical form, part of the invariant. -/
def Obligations.PushStoresOneByteEchoesOrAnswersFull : Prop :=
  (∀ w : Word, w &&& 0xFFFF_FFFF_FFFF_FF00 = 0x1000_0000_0000_0000 → decode w = some (.push (w.extractLsb' 0 8))) ∧
  (∀ bytes : List Byte, pushBytes bytes = bytes.map .push) ∧
  ∀ (d : BitVec 8) (s : State), s.buf.wf →
    (s.faulted = true → exec (.push d) s = .next { s with out := s.out ++ [⟨s.err, 0, 0, []⟩] }) ∧
    (s.faulted = false → s.count = 2048 → exec (.push d) s = .next { s with out := s.out ++ [⟨0x2, 0, 0, []⟩] }) ∧
    (s.faulted = false → s.count ≠ 2048 → ∃ t, exec (.push d) s = .next t ∧
      t.out = s.out ++ [⟨0x0, BitVec.ofNat 16 (s.count + 1), 0, []⟩] ∧ t.count = s.count + 1 ∧ t.head = s.head ∧
      t.faulted = s.faulted ∧ t.err = s.err ∧ t.input = s.input ∧
      ∀ a, memRead a t = if a = (s.head + s.count) % 2048 then d else memRead a s)

/-- PULL: its word; and on the logical content Q, in the order of the checks (R110, R112). A failure latches FAULTED and ERR; a zero length
consumes the four header bytes first; a delivered frame is the first 4 + len bytes of Q; BUF is never written. -/
def Obligations.PullDecidesThenDeliversOrFails : Prop :=
  (∀ w : Word, w &&& 0xFFFF_FFFF_FFFF_FFFF = 0x2000_0000_0000_0000 → decode w = some .pull) ∧
  ∀ s : State,
    let q := bufferContent Config.phfd s
    let len := (byteAt q 2).toNat * 256 + (byteAt q 3).toNat
    exec .pull s = .next (
      if s.faulted = true then { s with out := s.out ++ [⟨s.err, 0, 0, []⟩] }
      else if s.count < 4 then { s with out := s.out ++ [⟨0x1, 0, 0, []⟩] }
      else if byteAt q 0 ≠ 1 then { s with faulted := true, err := 0x8, out := s.out ++ [⟨0x8, 0, 0, []⟩] }
      else if 1019 ≤ len then { s with faulted := true, err := 0x9, out := s.out ++ [⟨0x9, 0, 0, []⟩] }
      else if s.count < 4 + len then { s with out := s.out ++ [⟨0x1, 0, 0, []⟩] }
      else if len = 0 then
        { s with head := (s.head + 4) % 2048, count := s.count - 4, faulted := true, err := 0xA,
                 out := s.out ++ [⟨0xA, 0, 0, []⟩] }
      else
        { s with head := (s.head + (4 + len)) % 2048, count := s.count - (4 + len),
                 out := s.out ++ [⟨0x0, BitVec.ofNat 16 (4 + len),
                   BitVec.ofNat 32 ((byteAt q 0).toNat * 2 ^ 24 + (byteAt q 1).toNat * 2 ^ 16 + len),
                   q.take (4 + len)⟩] })

/-- The list reading of R24, for every choice of the parameters: a stored PUSH is Q <- Q ++ [d], and a PULL that takes n payload
bytes is Q <- Q[4 + n..). The memory is in its canonical form, part of the invariant. -/
def Obligations.LogicalContentGrowsAndShrinksAsAList : Prop :=
  ∀ (c : Config) (s : State), s.buf.wf → s.faulted = false →
    (∀ d, s.count < c.bufCap → bufferContent c (push c d s) = bufferContent c s ++ [d]) ∧
    ∀ n, classify c (bufferContent c s) = .take n →
      bufferContent c (pull c s) = (bufferContent c s).drop (4 + n)

/-- A decision once reachable is not changed by more bytes, and a PULL that returns NONE changes no state (R114). -/
def Obligations.ClassifyIsMonotone : Prop :=
  (∀ (c : Config) (q x : List Byte), classify c q ≠ .noPacket → classify c (q ++ x) = classify c q) ∧
    ∀ (s t : State) (r : Response), exec .pull s = .next t → t.out = s.out ++ [r] → r.st = 0x1 →
      t = { s with out := t.out }

/-- The checks of PULL depend on bytes 0 to 3 and the number of bytes alone, never on a payload byte, and VALIDATE answers from the
header word and the length alone, whatever the state (R93). -/
def Obligations.DecisionReadsHeaderAndLengthOnly : Prop :=
  (∀ (n : BitVec 16) (h : BitVec 32), ∃ r : Response, ∀ s : State,
    exec (.validate n h) s = .next { s with out := s.out ++ [r] }) ∧
  ∀ (c : Config) (s s' : State), s'.count = s.count → s'.faulted = s.faulted → s'.err = s.err →
    (bufferContent c s').take 4 = (bufferContent c s).take 4 →
      classify c (bufferContent c s') = classify c (bufferContent c s) ∧
      ∀ r r' : Response, (pull c s).out = s.out ++ [r] → (pull c s').out = s'.out ++ [r'] →
        r'.st = r.st ∧ r'.rn = r.rn ∧ r'.rw = r.rw

/-- Every frame that PULL delivers is a Packet within the bounds, its length is RN, and the checks of VALIDATE pass on it, so
LENGTH_MISMATCH cannot occur in PULL (R86, R118); for every valid choice of the parameters. -/
def Obligations.DeliveredFrameIsAPacket : Prop :=
  ∀ (c : Config) (s : State) (r : Response), c.Valid → s.faulted = false → (pull c s).out = s.out ++ [r] → r.st = 0x0 →
    IsPacket c r.frame ∧ 1 ≤ packetLength r.frame ∧ packetLength r.frame ≤ c.maxPayload - 1 ∧
      5 ≤ r.frame.length ∧ r.frame.length ≤ c.maxFrame ∧ r.rn.toNat = packetTotalLength r.frame ∧
      validateStatus c r.frame.length (hdrword r.frame) = .ok

/-- A full buffer never stalls: classify is not NONE, and a PULL delivers a frame, freeing at least 5 bytes, or fails; for every
valid choice of the parameters (R119). -/
def Obligations.FullBufferNeverStalls : Prop :=
  ∀ (c : Config) (s : State), c.Valid → s.count = c.bufCap → s.faulted = false →
    classify c (bufferContent c s) ≠ .noPacket ∧ ∃ r : Response, (pull c s).out = s.out ++ [r] ∧
      ((r.st = 0x0 ∧ r.frame ≠ [] ∧ (pull c s).count + 5 ≤ s.count) ∨ (8 ≤ r.st.toNat ∧ (pull c s).faulted = true))

/-! ### Failures -/

/-- After a PULL has answered VERSION_MISMATCH, OVERSIZE or EMPTY_PAYLOAD, every later PUSH and PULL answers the same code and no
state changes, whatever commands but CLEAR are issued (R117). -/
def Obligations.FailureIsStickyUntilClear : Prop :=
  ∀ (s s' t : State) (code : BitVec 4) (cmds : List Instr),
    (code = 0x8 ∨ code = 0x9 ∨ code = 0xA) → exec .pull s = .next s' → s'.out = s.out ++ [⟨code, 0, 0, []⟩] →
    (∀ i ∈ cmds, i ≠ .clear) → runCommands cmds s' = .next t →
      SameFramer s' t ∧ ∃ rs : List Response, t.out = s'.out ++ rs ∧ rs.length = cmds.length ∧
        ∀ (k : Nat) (i : Instr) (r : Response), cmds[k]? = some i → rs[k]? = some r → isFramerCommand i = true →
          r = ⟨code, 0, 0, []⟩

/-- FAULTED goes from 0 to 1 only by a PULL, from 1 to 0 only by CLEAR or a reset, and ERR keeps its first value while FAULTED
stays 1 (R25, R26, R30, R156, R157). -/
def Obligations.FaultedEnteredByPullLeftByClearOrReset : Prop :=
  ∀ s t : State, step s = .next t →
    (s.faulted = false → t.faulted = true → ∃ w rest, s.input = .command w :: rest ∧ decode w = some .pull) ∧
    (s.faulted = true → t.faulted = false →
      (∃ w rest, s.input = .command w :: rest ∧ decode w = some .clear) ∨
      (∃ draw rest, s.input = .reset draw :: rest) ∨ ∃ w draw rest, s.input = .resetDuring w draw :: rest) ∧
    (s.faulted = true → t.faulted = true → t.err = s.err)

/-! ### Invariant and refinement -/

/-- Every step keeps the invariant: FAULTED = 1 iff ERR is not 0, ERR is 0x0, 0x8, 0x9 or 0xA, COUNT <= BUF_CAP, HEAD < BUF_CAP
(R27); and the memory stays canonical and inside BUF (the model's form, log 1). -/
def Obligations.StepKeepsStateInvariant : Prop :=
  ∀ s t : State, Inv Config.phfd s → step s = .next t → Inv Config.phfd t

/-- The invariant holds right after reset. -/
def Obligations.ResetStateMeetsInvariant : Prop := Inv Config.phfd State.reset

/-- The ring buffer refines the list model of R24: every command acts on the observable state as the list model says. -/
def Obligations.RingBufferRefinesListModel : Prop :=
  ∀ (i : Instr) (s t : State), Inv Config.phfd s → exec i s = .next t →
    observe Config.phfd t = ListState.perform Config.phfd i (observe Config.phfd s)

/-- HEAD and the bytes of BUF outside Q never show: two states that differ only there answer alike, and go on differing only
there (R33). -/
def Obligations.HiddenStateNeverShows : Prop :=
  ∀ s s' t : State, Inv Config.phfd s → Inv Config.phfd s' → observe Config.phfd s' = observe Config.phfd s →
    step s = .next t → ∃ t', step s' = .next t' ∧ observe Config.phfd t' = observe Config.phfd t

/-! ### Streams -/

/-- Fragmentation invariance (R115): the bytes S are pushed in order, PULLs are issued at any points, no PUSH returns FULL, and the
last PULL returns a status that is not OK. Then the delivered frames, the last status and what is left are those of the loop
`streamFrames`, however S was split. Other commands but CLEAR may stand in between. -/
def Obligations.FragmentationInvariance : Prop :=
  ∀ (cmds : List Instr) (s t : State) (rs : List Response) (last : Response),
    Inv Config.phfd s → s.faulted = false → s.count = 0 → (∀ i ∈ cmds, i ≠ .clear) →
    runCommands (cmds ++ [.pull]) s = .next t → t.out = s.out ++ rs ++ [last] →
    (∀ r ∈ rs, r.st ≠ 0x2) → last.st ≠ 0x0 →
      deliveredFrames (rs ++ [last]) = (streamFrames Config.phfd (pushedBytes cmds)).frames ∧
      last.st = (streamFrames Config.phfd (pushedBytes cmds)).last ∧
      (last.st = 0x1 → bufferContent Config.phfd t = (streamFrames Config.phfd (pushedBytes cmds)).rest) ∧
      bufferContent Config.phfd t <+: (streamFrames Config.phfd (pushedBytes cmds)).rest

/-- Pushing the concatenation of any packets that fits the buffer, then as many PULLs as packets and one more: the packets in
order, then NONE (R113, R116). -/
def Obligations.PushedPacketsAreDeliveredInOrder : Prop :=
  ∀ (fs : List (List Byte)) (s : State), Inv Config.phfd s → s.faulted = false → s.count = 0 →
    (∀ f ∈ fs, IsPacket Config.phfd f ∧ packetLength f ≤ 1018) → fs.flatten.length ≤ 2048 →
      ∃ t, runCommands (pushBytes fs.flatten ++ List.replicate (fs.length + 1) .pull) s = .next t ∧
        t.out = s.out ++ (List.range fs.flatten.length).map (fun j => ⟨0x0, BitVec.ofNat 16 (j + 1), 0, []⟩) ++
          fs.map (fun f => ⟨0x0, BitVec.ofNat 16 f.length, hdrword f, f⟩) ++ [⟨0x1, 0, 0, []⟩] ∧
        bufferContent Config.phfd t = []

/-- The round trip through the framer (R92): a packet whose header BUILD made comes out of PULL as it was sent if N <= 1018, and
is answered OVERSIZE if N = 1019. -/
def Obligations.BuiltPacketComesThroughTheFramer : Prop :=
  ∀ (n : BitVec 16) (t : BitVec 8) (e : BitVec 2) (payload : List Byte) (s sb : State) (rn : BitVec 16) (h : HeaderWord),
    Inv Config.phfd s → s.faulted = false → s.count = 0 → t.toNat ≤ 62 → 1 ≤ n.toNat → n.toNat ≤ 1019 →
    payload.length = n.toNat → exec (.build n t e) s = .next sb → sb.out = s.out ++ [⟨0x0, rn, h, []⟩] →
      ∃ u, runCommands (sendPacket h payload ++ [.pull]) sb = .next u ∧
        (n.toNat ≤ 1018 → lastResponse u = some ⟨0x0, rn, h, headerBytes h ++ payload⟩) ∧
        (n.toNat = 1019 → lastResponse u = some ⟨0x9, 0, 0, []⟩)

/-- The bytes of the delivered frames are, concatenated, a prefix of the accepted pushed bytes in push order (R51). -/
def Obligations.DeliveredBytesArePrefixOfAcceptedBytes : Prop :=
  ∀ (cmds : List Instr) (s t : State) (rs : List Response), Inv Config.phfd s → s.faulted = false → s.count = 0 →
    (∀ i ∈ cmds, i ≠ .clear) → runCommands cmds s = .next t → t.out = s.out ++ rs →
      (deliveredFrames rs).flatten <+: acceptedBytes cmds rs

/-- A host that drains before each chunk of at most 1024 bytes never sees FULL: the drain ends with a status that is not OK, after
it COUNT <= 1021, and then every PUSH of the chunk is answered OK (R166). -/
def Obligations.DrainedHostNeverSeesFull : Prop :=
  ∀ (s : State) (chunk : List Byte), Inv Config.phfd s →
    (∃ r, lastResponse (drain Config.phfd s) = some r ∧ r.st ≠ 0x0) ∧
    ((drain Config.phfd s).faulted = false → (drain Config.phfd s).count ≤ 1021 ∧
      (chunk.length ≤ 1024 → ∃ t rs, runCommands (pushBytes chunk) (drain Config.phfd s) = .next t ∧
        t.out = (drain Config.phfd s).out ++ rs ∧ rs.length = chunk.length ∧ ∀ r ∈ rs, r.st = 0x0))

/-! ### Instances and packets -/

/-- Instances share no state: a step of one leaves every other unchanged, and an instance steps on a platform as it does alone
(R35). -/
def Obligations.InstancesAreIndependent : Prop :=
  ∀ (p : List State) (k : Nat) (s t : State), p[k]? = some s → step s = .next t →
    ∃ p', platformStep k p = .next p' ∧ p'.length = p.length ∧ p'[k]? = some t ∧ ∀ j, j ≠ k → p'[j]? = p[j]?

/-- A Packet is its header followed by its data, the header made of the values its accessors give (R81 to R86). -/
def Obligations.PacketAccessorsReadTheHeader : Prop :=
  ∀ (c : Config) (f : List Byte), IsPacket c f →
    packetVersion f = c.version ∧ (packetData f).length = packetLength f ∧ packetTotalLength f = packetLength f + 4 ∧
      f = headerBytes (packHeader (packetVersion f) (packetEncoding f) (packetType f) (BitVec.ofNat 16 (packetLength f))) ++
        packetData f

/-- readInto: too small a destination is left unchanged; else its first |f| bytes are f and the rest is unchanged (R89). -/
def Obligations.ReadIntoCopiesOrLeavesDestination : Prop :=
  ∀ f dst : List Byte,
    (dst.length < f.length → readInto f dst = .bufferTooSmall dst) ∧
    (f.length ≤ dst.length → ∃ d, readInto f dst = .copied d ∧ d.length = dst.length ∧ d.take f.length = f ∧
      d.drop f.length = dst.drop f.length)
end

