-- ==== Sys2Proof/Laws/State.lean ====
section
/-! SUPPORT. One lemma per field per update of the state, so that no proof unfolds a record update. -/

namespace Sys2Proof.Machine

/-! ### memWrite -/

@[simp] theorem memWrite_buf (a : Nat) (v : Byte) (s : State) : (memWrite a v s).buf = writeCells s.buf a v := rfl
@[simp] theorem memWrite_head (a : Nat) (v : Byte) (s : State) : (memWrite a v s).head = s.head := rfl
@[simp] theorem memWrite_count (a : Nat) (v : Byte) (s : State) : (memWrite a v s).count = s.count := rfl
@[simp] theorem memWrite_faulted (a : Nat) (v : Byte) (s : State) : (memWrite a v s).faulted = s.faulted := rfl
@[simp] theorem memWrite_err (a : Nat) (v : Byte) (s : State) : (memWrite a v s).err = s.err := rfl
@[simp] theorem memWrite_input (a : Nat) (v : Byte) (s : State) : (memWrite a v s).input = s.input := rfl
@[simp] theorem memWrite_out (a : Nat) (v : Byte) (s : State) : (memWrite a v s).out = s.out := rfl

/-! ### storeByte -/

@[simp] theorem storeByte_buf (c : Config) (d : Byte) (s : State) : (storeByte c d s).buf = writeCells s.buf (ringIndex c s.count s) d := rfl
@[simp] theorem storeByte_head (c : Config) (d : Byte) (s : State) : (storeByte c d s).head = s.head := rfl
@[simp] theorem storeByte_count (c : Config) (d : Byte) (s : State) : (storeByte c d s).count = s.count + 1 := rfl
@[simp] theorem storeByte_faulted (c : Config) (d : Byte) (s : State) : (storeByte c d s).faulted = s.faulted := rfl
@[simp] theorem storeByte_err (c : Config) (d : Byte) (s : State) : (storeByte c d s).err = s.err := rfl
@[simp] theorem storeByte_input (c : Config) (d : Byte) (s : State) : (storeByte c d s).input = s.input := rfl
@[simp] theorem storeByte_out (c : Config) (d : Byte) (s : State) : (storeByte c d s).out = s.out := rfl

/-! ### consume -/

@[simp] theorem consume_buf (c : Config) (k : Nat) (s : State) : (consume c k s).buf = s.buf := rfl
@[simp] theorem consume_head (c : Config) (k : Nat) (s : State) : (consume c k s).head = (s.head + k) % c.bufCap := rfl
@[simp] theorem consume_count (c : Config) (k : Nat) (s : State) : (consume c k s).count = s.count - k := rfl
@[simp] theorem consume_faulted (c : Config) (k : Nat) (s : State) : (consume c k s).faulted = s.faulted := rfl
@[simp] theorem consume_err (c : Config) (k : Nat) (s : State) : (consume c k s).err = s.err := rfl
@[simp] theorem consume_input (c : Config) (k : Nat) (s : State) : (consume c k s).input = s.input := rfl
@[simp] theorem consume_out (c : Config) (k : Nat) (s : State) : (consume c k s).out = s.out := rfl

/-! ### respond -/

@[simp] theorem respond_buf (st : BitVec 4) (rn : BitVec 16) (rw : BitVec 32) (f : List Byte) (s : State) : (respond st rn rw f s).buf = s.buf := rfl
@[simp] theorem respond_head (st : BitVec 4) (rn : BitVec 16) (rw : BitVec 32) (f : List Byte) (s : State) : (respond st rn rw f s).head = s.head := rfl
@[simp] theorem respond_count (st : BitVec 4) (rn : BitVec 16) (rw : BitVec 32) (f : List Byte) (s : State) : (respond st rn rw f s).count = s.count := rfl
@[simp] theorem respond_faulted (st : BitVec 4) (rn : BitVec 16) (rw : BitVec 32) (f : List Byte) (s : State) : (respond st rn rw f s).faulted = s.faulted := rfl
@[simp] theorem respond_err (st : BitVec 4) (rn : BitVec 16) (rw : BitVec 32) (f : List Byte) (s : State) : (respond st rn rw f s).err = s.err := rfl
@[simp] theorem respond_input (st : BitVec 4) (rn : BitVec 16) (rw : BitVec 32) (f : List Byte) (s : State) : (respond st rn rw f s).input = s.input := rfl
@[simp] theorem respond_out (st : BitVec 4) (rn : BitVec 16) (rw : BitVec 32) (f : List Byte) (s : State) : (respond st rn rw f s).out = s.out ++ [⟨st, rn, rw, f⟩] := rfl

/-! ### latchFailure -/

@[simp] theorem latchFailure_buf (code : BitVec 4) (s : State) : (latchFailure code s).buf = s.buf := rfl
@[simp] theorem latchFailure_head (code : BitVec 4) (s : State) : (latchFailure code s).head = s.head := rfl
@[simp] theorem latchFailure_count (code : BitVec 4) (s : State) : (latchFailure code s).count = s.count := rfl
@[simp] theorem latchFailure_faulted (code : BitVec 4) (s : State) : (latchFailure code s).faulted = true := rfl
@[simp] theorem latchFailure_err (code : BitVec 4) (s : State) : (latchFailure code s).err = code := rfl
@[simp] theorem latchFailure_input (code : BitVec 4) (s : State) : (latchFailure code s).input = s.input := rfl
@[simp] theorem latchFailure_out (code : BitVec 4) (s : State) : (latchFailure code s).out = s.out := rfl

/-! ### restart -/

@[simp] theorem restart_buf (s : State) : (restart s).buf = s.buf := rfl
@[simp] theorem restart_head (s : State) : (restart s).head = 0 := rfl
@[simp] theorem restart_count (s : State) : (restart s).count = 0 := rfl
@[simp] theorem restart_faulted (s : State) : (restart s).faulted = false := rfl
@[simp] theorem restart_err (s : State) : (restart s).err = 0 := rfl
@[simp] theorem restart_input (s : State) : (restart s).input = s.input := rfl
@[simp] theorem restart_out (s : State) : (restart s).out = s.out := rfl

/-! ### takeReset -/

@[simp] theorem takeReset_buf (c : Config) (draw : List Host.Cell) (s : State) : (takeReset c draw s).buf = bufferOf c draw := rfl
@[simp] theorem takeReset_head (c : Config) (draw : List Host.Cell) (s : State) : (takeReset c draw s).head = 0 := rfl
@[simp] theorem takeReset_count (c : Config) (draw : List Host.Cell) (s : State) : (takeReset c draw s).count = 0 := rfl
@[simp] theorem takeReset_faulted (c : Config) (draw : List Host.Cell) (s : State) : (takeReset c draw s).faulted = false := rfl
@[simp] theorem takeReset_err (c : Config) (draw : List Host.Cell) (s : State) : (takeReset c draw s).err = 0 := rfl
@[simp] theorem takeReset_input (c : Config) (draw : List Host.Cell) (s : State) : (takeReset c draw s).input = s.input := rfl
@[simp] theorem takeReset_out (c : Config) (draw : List Host.Cell) (s : State) : (takeReset c draw s).out = s.out := rfl

/-! ### offerWord -/

@[simp] theorem offerWord_buf (w : Word) (s : State) : (offerWord w s).buf = s.buf := rfl
@[simp] theorem offerWord_head (w : Word) (s : State) : (offerWord w s).head = s.head := rfl
@[simp] theorem offerWord_count (w : Word) (s : State) : (offerWord w s).count = s.count := rfl
@[simp] theorem offerWord_faulted (w : Word) (s : State) : (offerWord w s).faulted = s.faulted := rfl
@[simp] theorem offerWord_err (w : Word) (s : State) : (offerWord w s).err = s.err := rfl
@[simp] theorem offerWord_input (w : Word) (s : State) : (offerWord w s).input = .command w :: s.input := rfl
@[simp] theorem offerWord_out (w : Word) (s : State) : (offerWord w s).out = s.out := rfl

/-! ### failWith and raiseFramerFailure, as the updates they are made of -/

@[simp] theorem failWith_eq (code : BitVec 4) (s : State) : failWith code s = respond code 0 0 [] s := rfl

@[simp] theorem raiseFramerFailure_eq (code : BitVec 4) (s : State) :
    raiseFramerFailure code s = respond code 0 0 [] (latchFailure code s) := rfl

/-- What the next event is, once the input is known. -/
theorem nextEvent_cons {s : State} {e : HostEvent} {rest : List HostEvent} (h : s.input = e :: rest) :
    nextEvent s = some (e, { s with input := rest }) := by simp [nextEvent, h]

/-- Nothing offered, no event. -/
theorem nextEvent_nil {s : State} (h : s.input = []) : nextEvent s = none := by simp [nextEvent, h]

end Sys2Proof.Machine
end

