-- ==== Sys2Proof/Laws/Memory.lean ====
section
/-! SUPPORT. The buffer's cells: a read after a write, and that a write keeps the canonical form and the address range. -/

namespace Sys2Proof.Machine

@[simp] theorem readCells_nil (a : Nat) : readCells [] a = unlistedByte := rfl

@[simp] theorem readCells_cons (k : Nat) (v : Byte) (m : Memory) (a : Nat) :
    readCells ((k, v) :: m) a = if k = a then v else readCells m a := rfl

/-- An index below every listed one reads as an unlisted byte. -/
theorem readCells_of_lt {m : Memory} {a : Nat} (h : ∀ x ∈ m, a < x.1) : readCells m a = unlistedByte := by
  induction m with
  | nil => rfl
  | cons x m ih =>
    obtain ⟨k, v⟩ := x
    have hk : a < k := h (k, v) (by simp)
    rw [readCells_cons, if_neg (by omega)]
    exact ih fun x hx => h x (by simp [hx])

/-- `consCell` reads as the cell it adds, in front of cells that lie above it. -/
theorem readCells_consCell {m : Memory} {a : Nat} (h : ∀ x ∈ m, a < x.1) (v : Byte) (b : Nat) :
    readCells (consCell a v m) b = if b = a then v else readCells m b := by
  unfold consCell
  split
  · next hv =>
    split
    · next hb => rw [hb, readCells_of_lt h, hv]
    · rfl
  · rw [readCells_cons]
    simp [eq_comm]

/-- The cells after the first lie above it. -/
theorem Memory.wf.head_lt {k : Nat} {w : Byte} {m : Memory} (h : Memory.wf ((k, w) :: m)) : ∀ x ∈ m, k < x.1 :=
  (List.pairwise_cons.mp h.1).1

theorem Memory.wf.tail {x : Host.Cell} {m : Memory} (h : Memory.wf (x :: m)) : Memory.wf m :=
  ⟨(List.pairwise_cons.mp h.1).2, fun y hy => h.2 y (by simp [hy])⟩

theorem Memory.wf_nil : Memory.wf [] := ⟨List.Pairwise.nil, by simp⟩

/-- A read after a write: the byte written at its index, every other byte as before. -/
theorem readCells_writeCells {m : Memory} (h : m.wf) (a : Nat) (v : Byte) (b : Nat) :
    readCells (writeCells m a v) b = if b = a then v else readCells m b := by
  induction m with
  | nil => exact readCells_consCell (by simp) v b
  | cons x m ih =>
    obtain ⟨k, w⟩ := x
    have hk := h.head_lt
    simp only [writeCells]
    split
    · next hlt =>
      refine readCells_consCell (fun x hx => ?_) v b
      rcases List.mem_cons.mp hx with rfl | hx
      · exact hlt
      · exact hlt.trans (hk x hx)
    · split
      · next hak =>
        subst hak
        rw [readCells_consCell hk, readCells_cons]
        by_cases hb : b = a
        · simp [hb]
        · simp [hb, Ne.symm hb]
      · next hlt hak =>
        rw [readCells_cons, readCells_cons, ih h.tail]
        by_cases hb : b = a
        · simp [hb, Ne.symm hak]
        · simp [hb]

/-- A cell of `consCell` is the one it adds, and then no unlisted byte, or one behind it. -/
theorem mem_consCell {m : Memory} {a : Nat} {v : Byte} {x : Host.Cell} (h : x ∈ consCell a v m) :
    x = (a, v) ∧ v ≠ unlistedByte ∨ x ∈ m := by
  unfold consCell at h
  split at h
  · exact .inr h
  · next hv => exact (List.mem_cons.mp h).imp (fun h => ⟨h, hv⟩) id

/-- Every cell after a write is the written one or an old one. -/
theorem mem_writeCells {m : Memory} {a : Nat} {v : Byte} {x : Host.Cell} (h : x ∈ writeCells m a v) :
    x = (a, v) ∧ v ≠ unlistedByte ∨ x ∈ m := by
  induction m with
  | nil => exact mem_consCell h
  | cons y m ih =>
    obtain ⟨k, w⟩ := y
    simp only [writeCells] at h
    split at h
    · exact mem_consCell h
    · split at h
      · exact (mem_consCell h).imp id (List.mem_cons_of_mem _)
      · rcases List.mem_cons.mp h with rfl | h
        · exact .inr (by simp)
        · exact (ih h).imp id (List.mem_cons_of_mem _)

/-- `consCell` in front of cells that lie above it keeps the canonical form. -/
theorem Memory.wf.consCell {m : Memory} (h : m.wf) {a : Nat} (ha : ∀ x ∈ m, a < x.1) (v : Byte) :
    Memory.wf (consCell a v m) := by
  unfold Sys2Proof.Machine.consCell
  split
  · exact h
  · next hv =>
    refine ⟨List.pairwise_cons.mpr ⟨ha, h.1⟩, fun x hx => ?_⟩
    rcases List.mem_cons.mp hx with rfl | hx
    · exact hv
    · exact h.2 x hx

/-- A write keeps the canonical form. -/
theorem Memory.wf.writeCells {m : Memory} (h : m.wf) (a : Nat) (v : Byte) : Memory.wf (writeCells m a v) := by
  induction m with
  | nil => exact h.consCell (by simp) v
  | cons x m ih =>
    obtain ⟨k, w⟩ := x
    have hk := h.head_lt
    simp only [Sys2Proof.Machine.writeCells]
    split
    · next hlt =>
      refine h.consCell (fun x hx => ?_) v
      rcases List.mem_cons.mp hx with rfl | hx
      · exact hlt
      · exact hlt.trans (hk x hx)
    · split
      · next hak => exact h.tail.consCell (hak ▸ hk) v
      · next hlt hak =>
        refine ⟨List.pairwise_cons.mpr ⟨fun x hx => ?_, (ih h.tail).1⟩, fun x hx => ?_⟩
        · rcases mem_writeCells hx with ⟨rfl, -⟩ | hx
          · exact Nat.lt_of_le_of_ne (Nat.le_of_not_lt hlt) (Ne.symm hak)
          · exact hk x hx
        · rcases List.mem_cons.mp hx with rfl | hx
          · exact h.2 (k, w) (by simp)
          · exact (ih h.tail).2 x hx

/-- A write inside the address range keeps the cells inside it. -/
theorem writeCells_lt {m : Memory} {n : Nat} (h : ∀ x ∈ m, x.1 < n) {a : Nat} (ha : a < n) (v : Byte) :
    ∀ x ∈ writeCells m a v, x.1 < n := by
  intro x hx
  rcases mem_writeCells hx with ⟨rfl, -⟩ | hx
  · exact ha
  · exact h x hx

/-- The buffer a reset leaves is canonical. -/
theorem bufferOf_wf (c : Config) (draw : List Host.Cell) : Memory.wf (bufferOf c draw) := by
  suffices ∀ m : Memory, m.wf → Memory.wf (draw.foldl (fun m x => writeCells m (x.1 % c.bufCap) x.2) m) from
    this [] Memory.wf_nil
  induction draw with
  | nil => exact fun m h => h
  | cons x draw ih => exact fun m h => ih _ (h.writeCells _ _)

/-- The buffer a reset leaves lies inside BUF's address range. -/
theorem bufferOf_lt {c : Config} (hc : 0 < c.bufCap) (draw : List Host.Cell) : ∀ x ∈ bufferOf c draw, x.1 < c.bufCap := by
  suffices ∀ m : Memory, (∀ x ∈ m, x.1 < c.bufCap) →
      ∀ x ∈ draw.foldl (fun m x => writeCells m (x.1 % c.bufCap) x.2) m, x.1 < c.bufCap from
    this [] (by simp)
  induction draw with
  | nil => exact fun m h => h
  | cons x draw ih => exact fun m h => ih _ (writeCells_lt h (Nat.mod_lt _ hc) _)

end Sys2Proof.Machine
end

