-- ==== Sys2Proof/Laws/Buffer.lean ====
section
/-! SUPPORT. The logical content Q (10_state.md R24): its length and bytes, and what storing and consuming do to it. -/

namespace Sys2Proof.Machine

@[simp] theorem copyOut_length (c : Config) (k : Nat) (s : State) : (copyOut c k s).length = k := by simp [copyOut]

@[simp] theorem bufferContent_length (c : Config) (s : State) : (bufferContent c s).length = s.count := by
  simp [bufferContent]

/-- Byte `i` of a copy is one MemRead (R24, R41). -/
theorem copyOut_getElem (c : Config) (k : Nat) (s : State) (i : Nat) (h : i < (copyOut c k s).length) :
    (copyOut c k s)[i] = readCells s.buf ((s.head + i) % c.bufCap) := by
  simp [copyOut, memRead, ringIndex]

/-- Byte `i` of Q is one MemRead (R24). -/
theorem bufferContent_getElem (c : Config) (s : State) (i : Nat) (h : i < (bufferContent c s).length) :
    (bufferContent c s)[i] = readCells s.buf ((s.head + i) % c.bufCap) := copyOut_getElem c s.count s i h

/-- Copying out `k` bytes of Q is taking its first `k`. -/
theorem copyOut_eq_take {c : Config} {k : Nat} {s : State} (h : k ≤ s.count) :
    copyOut c k s = (bufferContent c s).take k := by
  refine List.ext_getElem (by simp; omega) fun i h1 h2 => ?_
  rw [List.getElem_take, copyOut_getElem, bufferContent_getElem]

/-- Q depends on BUF, HEAD and COUNT alone. -/
theorem bufferContent_congr {c : Config} {s t : State} (hb : t.buf = s.buf) (hh : t.head = s.head)
    (hn : t.count = s.count) : bufferContent c t = bufferContent c s := by
  simp [bufferContent, copyOut, memRead, ringIndex, hb, hh, hn]

@[simp] theorem bufferContent_respond (c : Config) (st : BitVec 4) (rn : BitVec 16) (rw : BitVec 32) (f : List Byte)
    (s : State) : bufferContent c (respond st rn rw f s) = bufferContent c s := rfl

@[simp] theorem bufferContent_latchFailure (c : Config) (code : BitVec 4) (s : State) :
    bufferContent c (latchFailure code s) = bufferContent c s := rfl

@[simp] theorem bufferContent_restart (c : Config) (s : State) : bufferContent c (restart s) = [] := rfl

/-- Different logical positions of a buffer that is not overfull lie at different indices. -/
theorem ring_ne {cap head i n : Nat} (hi : i < n) (hn : n < cap) : (head + i) % cap ≠ (head + n) % cap := by
  intro h
  have h2 : (head + n - (head + i)) % cap = 0 := Nat.sub_mod_eq_zero_of_mod_eq h.symm
  rw [show head + n - (head + i) = n - i by omega, Nat.mod_eq_of_lt (by omega)] at h2
  omega

/-- Storing a byte into a buffer that is not full appends it to Q (R24). -/
theorem bufferContent_storeByte {c : Config} {s : State} (hwf : s.buf.wf) (hroom : s.count < c.bufCap) (d : Byte) :
    bufferContent c (storeByte c d s) = bufferContent c s ++ [d] := by
  refine List.ext_getElem (by simp) fun i h1 h2 => ?_
  rw [bufferContent_getElem]
  simp only [storeByte_buf, storeByte_head, ringIndex, readCells_writeCells hwf]
  simp only [bufferContent_length, storeByte_count] at h1
  rcases Nat.lt_or_eq_of_le (Nat.le_of_lt_succ h1) with hi | hi
  · rw [if_neg (ring_ne hi hroom), List.getElem_append_left (by simpa using hi), bufferContent_getElem]
  · subst hi
    simp

/-- Consuming `k` bytes drops them from the front of Q (R24). -/
theorem bufferContent_consume (c : Config) (k : Nat) (s : State) :
    bufferContent c (consume c k s) = (bufferContent c s).drop k := by
  refine List.ext_getElem (by simp) fun i h1 h2 => ?_
  rw [List.getElem_drop, bufferContent_getElem, bufferContent_getElem]
  simp [Nat.mod_add_mod, Nat.add_assoc]

/-! ### classify (R110), once per outcome -/

/-- What each outcome of `classify` says of Q. -/
theorem classify_cases (c : Config) (q : List Byte) :
    (q.length < 4 ∧ classify c q = .noPacket) ∨
    (4 ≤ q.length ∧ byteAt q 0 ≠ c.version ∧ classify c q = .fail 0x8) ∨
    (4 ≤ q.length ∧ byteAt q 0 = c.version ∧ c.maxPayload ≤ lengthField q ∧ classify c q = .fail 0x9) ∨
    (4 ≤ q.length ∧ byteAt q 0 = c.version ∧ lengthField q < c.maxPayload ∧ q.length < 4 + lengthField q ∧
      classify c q = .noPacket) ∨
    (byteAt q 0 = c.version ∧ lengthField q < c.maxPayload ∧ 4 + lengthField q ≤ q.length ∧
      classify c q = .take (lengthField q)) := by
  unfold classify
  split
  · next h => exact .inl ⟨h, rfl⟩
  · next h0 =>
    have h0 : 4 ≤ q.length := Nat.le_of_not_lt h0
    split
    · next h => exact .inr (.inl ⟨h0, h, rfl⟩)
    · next h1 =>
      have h1 := not_ne_iff.mp h1
      split
      · next h => exact .inr (.inr (.inl ⟨h0, h1, h, rfl⟩))
      · next h2 =>
        have h2 := Nat.lt_of_not_le h2
        split
        · next h => exact .inr (.inr (.inr (.inl ⟨h0, h1, h2, h, rfl⟩)))
        · next h => exact .inr (.inr (.inr (.inr ⟨h1, h2, Nat.le_of_not_lt h, rfl⟩)))

/-- TAKE(n): the version is right, n is the length field and below MAX_PAYLOAD, and the frame is buffered. -/
theorem classify_take {c : Config} {q : List Byte} {n : Nat} (h : classify c q = .take n) :
    byteAt q 0 = c.version ∧ n = lengthField q ∧ n < c.maxPayload ∧ 4 + n ≤ q.length := by
  rcases classify_cases c q with ⟨_, e⟩ | ⟨_, _, e⟩ | ⟨_, _, _, e⟩ | ⟨_, _, _, _, e⟩ | ⟨hv, hl, hq, e⟩ <;>
    rw [e] at h <;> cases h
  exact ⟨hv, rfl, hl, hq⟩

/-- FAIL(code): the code is VERSION_MISMATCH or OVERSIZE, and a header is buffered. -/
theorem classify_fail {c : Config} {q : List Byte} {code : BitVec 4} (h : classify c q = .fail code) :
    (code = 0x8 ∨ code = 0x9) ∧ 4 ≤ q.length := by
  rcases classify_cases c q with ⟨_, e⟩ | ⟨hq, _, e⟩ | ⟨hq, _, _, e⟩ | ⟨_, _, _, _, e⟩ | ⟨_, _, _, e⟩ <;>
    rw [e] at h <;> cases h
  · exact ⟨.inl rfl, hq⟩
  · exact ⟨.inr rfl, hq⟩

end Sys2Proof.Machine
end

