-- ==== Sys2Proof/Laws/Decode.lean ====
section
/-! SUPPORT. The decoder read field by field: a word as its four fields (30_encoding.md R60), which fields each row of R62 fixes,
and the one spec lemma of `decode`. -/

namespace Sys2Proof

/-- The word of layout R60 with the fields OP, RSV, N and W. -/
def fieldsWord (op : BitVec 4) (rsv : BitVec 12) (n : BitVec 16) (w : BitVec 32) : Word := op ++ rsv ++ n ++ w

/-- Every word is the word of its four fields. -/
theorem fieldsWord_extract (w : Word) :
    fieldsWord (w.extractLsb' 60 4) (w.extractLsb' 48 12) (w.extractLsb' 32 16) (w.extractLsb' 0 32) = w := by
  unfold fieldsWord
  rw [BitVec.extractLsb'_append_extractLsb'_eq_extractLsb' (by rfl),
    BitVec.extractLsb'_append_extractLsb'_eq_extractLsb' (by rfl),
    BitVec.extractLsb'_append_extractLsb'_eq_extractLsb' (by rfl)]
  simp

theorem exists_fieldsWord (w : Word) : ∃ o r n v, w = fieldsWord o r n v := ⟨_, _, _, _, (fieldsWord_extract w).symm⟩

/-- The number a word stands for, from its fields. -/
theorem fieldsWord_toNat (op : BitVec 4) (rsv : BitVec 12) (n : BitVec 16) (w : BitVec 32) :
    (fieldsWord op rsv n w).toNat = op.toNat * 2 ^ 60 + rsv.toNat * 2 ^ 48 + n.toNat * 2 ^ 32 + w.toNat := by
  have := op.isLt; have := rsv.isLt; have := n.isLt; have := w.isLt
  simp only [fieldsWord, BitVec.toNat_append, Nat.shiftLeft_eq]
  repeat rw [← Nat.shiftLeft_eq, ← Nat.shiftLeft_add_eq_or_of_lt]
  all_goals simp [Nat.shiftLeft_eq]
  all_goals omega

/-- Masking acts field by field. -/
theorem fieldsWord_and (o mo : BitVec 4) (r mr : BitVec 12) (n mn : BitVec 16) (w mw : BitVec 32) :
    fieldsWord o r n w &&& fieldsWord mo mr mn mw = fieldsWord (o &&& mo) (r &&& mr) (n &&& mn) (w &&& mw) := by
  have h1 : (o ++ r) &&& (mo ++ mr) = (o &&& mo) ++ (r &&& mr) := BitVec.and_append
  have h2 : (o ++ r ++ n) &&& (mo ++ mr ++ mn) = (o &&& mo) ++ (r &&& mr) ++ (n &&& mn) := by
    rw [BitVec.and_append, h1]
  have h3 : (o ++ r ++ n ++ w) &&& (mo ++ mr ++ mn ++ mw) = (o &&& mo) ++ (r &&& mr) ++ (n &&& mn) ++ (w &&& mw) := by
    rw [BitVec.and_append, h2]
  exact h3

/-- Words are equal exactly when their fields are. -/
theorem fieldsWord_inj {o o' : BitVec 4} {r r' : BitVec 12} {n n' : BitVec 16} {w w' : BitVec 32} :
    fieldsWord o r n w = fieldsWord o' r' n' w' ↔ o = o' ∧ r = r' ∧ n = n' ∧ w = w' := by
  refine ⟨fun h => ?_, fun ⟨h1, h2, h3, h4⟩ => by rw [h1, h2, h3, h4]⟩
  have h := congrArg BitVec.toNat h
  rw [fieldsWord_toNat, fieldsWord_toNat] at h
  have := o.isLt; have := r.isLt; have := n.isLt; have := w.isLt
  have := o'.isLt; have := r'.isLt; have := n'.isLt; have := w'.isLt
  refine ⟨BitVec.eq_of_toNat_eq ?_, BitVec.eq_of_toNat_eq ?_, BitVec.eq_of_toNat_eq ?_, BitVec.eq_of_toNat_eq ?_⟩ <;> omega

/-- Selecting a row (R63), field by field, when match and mask are given by their fields. -/
theorem selects_fieldsWord (name : String) (vo mo : BitVec 4) (vr mr : BitVec 12) (vn mn : BitVec 16) (vw mw : BitVec 32)
    (o : BitVec 4) (r : BitVec 12) (n : BitVec 16) (w : BitVec 32) :
    OpcodeRow.selects ⟨name, fieldsWord vo vr vn vw, fieldsWord mo mr mn mw⟩ (fieldsWord o r n w) = true ↔
      o &&& mo = vo ∧ r &&& mr = vr ∧ n &&& mn = vn ∧ w &&& mw = vw := by
  rw [OpcodeRow.selects, fieldsWord_and, beq_iff_eq, fieldsWord_inj]

theorem and_ones4 (o : BitVec 4) : o &&& 0xF#4 = o := BitVec.and_allOnes
theorem and_ones12 (o : BitVec 12) : o &&& 0xFFF#12 = o := BitVec.and_allOnes
theorem and_ones16 (o : BitVec 16) : o &&& 0xFFFF#16 = o := BitVec.and_allOnes
theorem and_ones32 (o : BitVec 32) : o &&& 0xFFFFFFFF#32 = o := BitVec.and_allOnes

/-- A mask that leaves the low `k` bits free gives zero exactly on the words below `2 ^ k`. -/
theorem and_highOnes_eq_zero {m k : Nat} (w : BitVec (m + k)) :
    w &&& (BitVec.allOnes m ++ 0#k) = 0#(m + k) ↔ w.toNat < 2 ^ k := by
  have h : w = w.extractLsb' k m ++ w.extractLsb' 0 k := by
    rw [BitVec.extractLsb'_append_extractLsb'_eq_extractLsb' (by simp)]
    simp
  have e : w &&& (BitVec.allOnes m ++ 0#k) = w.extractLsb' k m ++ 0#k := by
    conv_lhs => rw [h]
    rw [BitVec.and_append, BitVec.and_allOnes, BitVec.and_zero]
  have hw := w.isLt
  rw [Nat.pow_add, Nat.mul_comm] at hw
  rw [e, ← BitVec.toNat_inj, BitVec.toNat_append, BitVec.extractLsb'_toNat, Nat.shiftRight_eq_div_pow,
    Nat.mod_eq_of_lt (Nat.div_lt_of_lt_mul hw)]
  simp [Nat.shiftLeft_eq, Nat.div_eq_zero_iff]

/-- The mask of PUSH's W. -/
theorem and_mask8_eq_zero (w : BitVec 32) : w &&& 0xFFFFFF00#32 = 0#32 ↔ w.toNat < 256 :=
  and_highOnes_eq_zero (m := 24) (k := 8) w

/-- The mask of BUILD's W. -/
theorem and_mask10_eq_zero (w : BitVec 32) : w &&& 0xFFFFFC00#32 = 0#32 ↔ w.toNat < 1024 :=
  and_highOnes_eq_zero (m := 22) (k := 10) w

section Rows

variable (o : BitVec 4) (r : BitVec 12) (n : BitVec 16) (w : BitVec 32)

@[simp] theorem rowNop_selects : rowNop.selects (fieldsWord o r n w) = true ↔ o = 0 ∧ r = 0 ∧ n = 0 ∧ w = 0 := by
  have h := selects_fieldsWord "NOP" 0 0xF#4 0 0xFFF#12 0 0xFFFF#16 0 0xFFFFFFFF#32 o r n w
  rwa [and_ones4, and_ones12, and_ones16, and_ones32] at h

@[simp] theorem rowPush_selects : rowPush.selects (fieldsWord o r n w) = true ↔ o = 1 ∧ r = 0 ∧ n = 0 ∧ w.toNat < 256 := by
  have h := selects_fieldsWord "PUSH" 1 0xF#4 0 0xFFF#12 0 0xFFFF#16 0#32 0xFFFFFF00#32 o r n w
  rwa [and_ones4, and_ones12, and_ones16, and_mask8_eq_zero] at h

@[simp] theorem rowPull_selects : rowPull.selects (fieldsWord o r n w) = true ↔ o = 2 ∧ r = 0 ∧ n = 0 ∧ w = 0 := by
  have h := selects_fieldsWord "PULL" 2 0xF#4 0 0xFFF#12 0 0xFFFF#16 0 0xFFFFFFFF#32 o r n w
  rwa [and_ones4, and_ones12, and_ones16, and_ones32] at h

@[simp] theorem rowValidate_selects : rowValidate.selects (fieldsWord o r n w) = true ↔ o = 3 ∧ r = 0 := by
  have h := selects_fieldsWord "VALIDATE" 3 0xF#4 0 0xFFF#12 0#16 0#16 0#32 0#32 o r n w
  rw [and_ones4, and_ones12, BitVec.and_zero, BitVec.and_zero] at h
  exact h.trans (by simp)

@[simp] theorem rowBuild_selects : rowBuild.selects (fieldsWord o r n w) = true ↔ o = 4 ∧ r = 0 ∧ w.toNat < 1024 := by
  have h := selects_fieldsWord "BUILD" 4 0xF#4 0 0xFFF#12 0#16 0#16 0#32 0xFFFFFC00#32 o r n w
  rw [and_ones4, and_ones12, BitVec.and_zero, and_mask10_eq_zero] at h
  exact h.trans (by simp)

@[simp] theorem rowStatus_selects : rowStatus.selects (fieldsWord o r n w) = true ↔ o = 5 ∧ r = 0 ∧ n = 0 ∧ w = 0 := by
  have h := selects_fieldsWord "STATUS" 5 0xF#4 0 0xFFF#12 0 0xFFFF#16 0 0xFFFFFFFF#32 o r n w
  rwa [and_ones4, and_ones12, and_ones16, and_ones32] at h

@[simp] theorem rowClear_selects : rowClear.selects (fieldsWord o r n w) = true ↔ o = 6 ∧ r = 0 ∧ n = 0 ∧ w = 0 := by
  have h := selects_fieldsWord "CLEAR" 6 0xF#4 0 0xFFF#12 0 0xFFFF#16 0 0xFFFFFFFF#32 o r n w
  rwa [and_ones4, and_ones12, and_ones16, and_ones32] at h

/-! ### The operand fields of a word given by its fields (R64) -/

@[simp] theorem fieldN_fieldsWord : fieldN (fieldsWord o r n w) = n := by
  apply BitVec.eq_of_toNat_eq
  have := n.isLt; have := w.isLt
  rw [fieldN, BitVec.extractLsb'_toNat, fieldsWord_toNat, Nat.shiftRight_eq_div_pow]
  omega

@[simp] theorem fieldH_fieldsWord : fieldH (fieldsWord o r n w) = w := by
  apply BitVec.eq_of_toNat_eq
  have := w.isLt
  rw [fieldH, BitVec.extractLsb'_toNat, fieldsWord_toNat, Nat.shiftRight_eq_div_pow]
  omega

@[simp] theorem fieldD_fieldsWord : fieldD (fieldsWord o r n w) = w.extractLsb' 0 8 := by
  apply BitVec.eq_of_toNat_eq
  rw [fieldD, BitVec.extractLsb'_toNat, BitVec.extractLsb'_toNat, fieldsWord_toNat]
  simp only [Nat.shiftRight_eq_div_pow]
  omega

@[simp] theorem fieldT_fieldsWord : fieldT (fieldsWord o r n w) = w.extractLsb' 0 8 := fieldD_fieldsWord o r n w

@[simp] theorem fieldE_fieldsWord : fieldE (fieldsWord o r n w) = w.extractLsb' 8 2 := by
  apply BitVec.eq_of_toNat_eq
  rw [fieldE, BitVec.extractLsb'_toNat, BitVec.extractLsb'_toNat, fieldsWord_toNat]
  simp only [Nat.shiftRight_eq_div_pow]
  omega

/-- The spec lemma of `decode`: which fields give which command (R61, R62, R64). -/
theorem decode_fieldsWord :
    decode (fieldsWord o r n w) =
      if o = 0 ∧ r = 0 ∧ n = 0 ∧ w = 0 then some .nop
      else if o = 1 ∧ r = 0 ∧ n = 0 ∧ w.toNat < 256 then some (.push (w.extractLsb' 0 8))
      else if o = 2 ∧ r = 0 ∧ n = 0 ∧ w = 0 then some .pull
      else if o = 3 ∧ r = 0 then some (.validate n w)
      else if o = 4 ∧ r = 0 ∧ w.toNat < 1024 then some (.build n (w.extractLsb' 0 8) (w.extractLsb' 8 2))
      else if o = 5 ∧ r = 0 ∧ n = 0 ∧ w = 0 then some .status
      else if o = 6 ∧ r = 0 ∧ n = 0 ∧ w = 0 then some .clear
      else none := by
  simp only [decode, rowNop_selects, rowPush_selects, rowPull_selects, rowValidate_selects, rowBuild_selects,
    rowStatus_selects, rowClear_selects, fieldN_fieldsWord, fieldH_fieldsWord, fieldD_fieldsWord, fieldT_fieldsWord,
    fieldE_fieldsWord]

end Rows

/-- A packed word is the word of its fields with RSV = 0. -/
theorem packWord_eq (op : BitVec 4) (n : BitVec 16) (w : BitVec 32) : packWord op n w = fieldsWord op 0 n w := rfl

end Sys2Proof
end

