-- ==== Sys2Proof/Laws/Values.lean ====
section
/-! SUPPORT. Header words, header bytes and operand words as numbers (20_memory.md R42, R43; 30_encoding.md R64, R68). -/

namespace Sys2Proof.Machine

/-- The W field of a PUSH word is D. -/
theorem pushField_toNat (d : BitVec 8) : (0#24 ++ d : BitVec 32).toNat = d.toNat := by
  have h : (0#24 ++ d : BitVec (24 + 8)).toNat = d.toNat := by
    simp only [BitVec.toNat_append, BitVec.toNat_ofNat]
    simp
  exact h

/-- The W field of a BUILD word is E and T. -/
theorem buildField_toNat (t : BitVec 8) (e : BitVec 2) : (0#22 ++ e ++ t : BitVec 32).toNat = e.toNat * 256 + t.toNat := by
  have h : (0#22 ++ e ++ t : BitVec (22 + 2 + 8)).toNat = e.toNat * 256 + t.toNat := by
    simp only [BitVec.toNat_append, BitVec.toNat_ofNat]
    rw [← Nat.shiftLeft_add_eq_or_of_lt t.isLt]
    simp [Nat.shiftLeft_eq]
  exact h

/-- The version is the top byte of the header word (R43). -/
theorem headerVersion_toNat (h : HeaderWord) : (headerVersion h).toNat = h.toNat / 2 ^ 24 := by
  have := h.isLt
  rw [headerVersion, BitVec.extractLsb'_toNat, Nat.shiftRight_eq_div_pow]
  omega

/-- The length is the low half of the header word (R43). -/
theorem headerLength_toNat (h : HeaderWord) : (headerLength h).toNat = h.toNat % 2 ^ 16 := by
  rw [headerLength, BitVec.extractLsb'_toNat]
  simp

/-- A packed header as a number (R43, R68). -/
theorem packHeader_toNat (v : BitVec 8) (e : BitVec 2) (t : BitVec 6) (n : BitVec 16) :
    (packHeader v e t n).toNat = v.toNat * 2 ^ 24 + e.toNat * 2 ^ 22 + t.toNat * 2 ^ 16 + n.toNat := by
  have h : (v ++ e ++ t ++ n : BitVec (8 + 2 + 6 + 16)).toNat =
      v.toNat * 2 ^ 24 + e.toNat * 2 ^ 22 + t.toNat * 2 ^ 16 + n.toNat := by
    simp only [BitVec.toNat_append]
    rw [← Nat.shiftLeft_add_eq_or_of_lt e.isLt, ← Nat.shiftLeft_add_eq_or_of_lt t.isLt,
      ← Nat.shiftLeft_add_eq_or_of_lt n.isLt]
    simp only [Nat.shiftLeft_eq]
    omega
  exact h

/-- The header word of a byte list as a number (R15, R42, R43). -/
theorem hdrword_toNat (q : List Byte) :
    (hdrword q).toNat = (byteAt q 0).toNat * 2 ^ 24 + (byteAt q 1).toNat * 2 ^ 16 + lengthField q := by
  have h : (byteAt q 0 ++ byteAt q 1 ++ byteAt q 2 ++ byteAt q 3 : BitVec (8 + 8 + 8 + 8)).toNat =
      (byteAt q 0).toNat * 2 ^ 24 + (byteAt q 1).toNat * 2 ^ 16 + lengthField q := by
    simp only [BitVec.toNat_append, lengthField]
    rw [← Nat.shiftLeft_add_eq_or_of_lt (byteAt q 1).isLt, ← Nat.shiftLeft_add_eq_or_of_lt (byteAt q 2).isLt,
      ← Nat.shiftLeft_add_eq_or_of_lt (byteAt q 3).isLt]
    simp only [Nat.shiftLeft_eq]
    omega
  exact h

/-! ### The front of a list decides its header bytes -/

theorem byteAt_take {q : List Byte} {k i : Nat} (h : i < k) : byteAt (q.take k) i = byteAt q i := by
  simp [byteAt, List.getD_eq_getElem?_getD, h]

theorem lengthField_take {q : List Byte} {k : Nat} (h : 4 ≤ k) : lengthField (q.take k) = lengthField q := by
  simp only [lengthField]
  rw [byteAt_take (by omega), byteAt_take (by omega)]

theorem hdrword_take {q : List Byte} {k : Nat} (h : 4 ≤ k) : hdrword (q.take k) = hdrword q := by
  simp only [hdrword]
  rw [byteAt_take (by omega), byteAt_take (by omega), byteAt_take (by omega), byteAt_take (by omega)]

theorem byteAt_append {q x : List Byte} {i : Nat} (h : i < q.length) : byteAt (q ++ x) i = byteAt q i := by
  simp [byteAt, List.getD_eq_getElem?_getD, List.getElem?_append_left h]

theorem lengthField_append {q x : List Byte} (h : 4 ≤ q.length) : lengthField (q ++ x) = lengthField q := by
  simp only [lengthField]
  rw [byteAt_append (by omega), byteAt_append (by omega)]

/-- The STATUS word as a number (R31). -/
theorem statusWord_toNat (c : Config) (s : State) :
    (statusWord c s).toNat = 16 * s.err.toNat + 2 * (ready c s).toNat + s.faulted.toNat := by
  unfold statusWord
  generalize ready c s = r
  generalize s.faulted = f
  generalize s.err = e
  revert e
  cases r <;> cases f <;> decide

end Sys2Proof.Machine
end

