-- ==== Sys2Proof/Laws/Assembler.lean ====
section
/-! SUPPORT. How the assembler reads words, numbers and number lists, and the words of PUSH and BUILD as numbers (30_encoding.md
R73, R74). -/

namespace Sys2Proof.Machine

/-- A run of characters with no separator in it. -/
abbrev Plain (cs : List Char) : Prop := ∀ ch ∈ cs, ch ∉ [' ', '\t', ',', '=', ';']

/-- A plain run goes to the word being collected. -/
theorem tokens_append {w : List Char} (hw : Plain w) (acc cs : List Char) : tokens acc (w ++ cs) = tokens (acc ++ w) cs := by
  induction w generalizing acc with
  | nil => simp
  | cons ch w ih =>
    have h := hw ch (by simp)
    simp only [List.mem_cons, List.not_mem_nil, or_false, not_or] at h
    rw [List.cons_append, tokens, if_neg h.2.2.2.2, if_neg (by simp [h.1, h.2.1]), if_neg h.2.2.1, if_neg h.2.2.2.1,
      ih (fun c hc => hw c (by simp [hc]))]
    simp

@[simp] theorem tokens_comment (acc cs : List Char) : tokens acc (';' :: cs) = endWord acc [] := by simp [tokens]
@[simp] theorem tokens_blank (acc cs : List Char) : tokens acc (' ' :: cs) = endWord acc (tokens [] cs) := by simp [tokens]
@[simp] theorem tokens_comma (acc cs : List Char) : tokens acc (',' :: cs) = endWord acc (.comma :: tokens [] cs) := by
  simp [tokens]
@[simp] theorem tokens_equals (acc cs : List Char) : tokens acc ('=' :: cs) = endWord acc (.equals :: tokens [] cs) := by
  simp [tokens]

theorem endWord_nil (ts : List Token) : endWord [] ts = ts := rfl

theorem endWord_word {w : List Char} (h : w ≠ []) (ts : List Token) : endWord w ts = .word w :: ts := if_neg h

/-- Nothing spells no number. -/
theorem number_ne_nil {w : List Char} {n : Nat} (h : number w = some n) : w ≠ [] := by
  rintro rfl
  cases h

/-- A line of one word. -/
theorem tokens_word {w : List Char} (hw : Plain w) (hn : w ≠ []) (cs : List Char) : tokens [] (w ++ ';' :: cs) = [.word w] := by
  rw [tokens_append hw, List.nil_append, tokens_comment, endWord_word hn]

/-- What a line of text answers, from its tokens, the source line they are, and the words that line assembles to. -/
theorem assembleText_eq {line : List Char} {t : Token} {ts : List Token} {l : AsmLine} {ws : List Word} {p : Prop} [Decidable p]
    (ht : tokens [] line = t :: ts) (hl : parseTokens (t :: ts) = some l) (ha : assemble l = if p then some ws else none) :
    assembleText line = if p then .words ws else .error := by
  rw [assembleText]
  simp only [ht, hl, ha]
  split
  · rename_i h; split at h <;> cases h; rw [if_pos ‹_›]
  · rename_i h; split at h <;> cases h; rw [if_neg ‹_›]

/-- The tokens of a list of words separated by commas. -/
def listTokens : List (List Char) → List Token
  | [] => []
  | [w] => [.word w]
  | w :: v :: ws => .word w :: .comma :: listTokens (v :: ws)

/-- Words separated by commas, up to a comment. -/
theorem tokens_intercalate {w : List Char} {ws : List (List Char)} (h : ∀ v ∈ w :: ws, Plain v ∧ v ≠ []) (cs : List Char) :
    tokens [] ([','].intercalate (w :: ws) ++ ';' :: cs) = listTokens (w :: ws) := by
  induction ws generalizing w with
  | nil =>
    have hw := h w (by simp)
    rw [show [','].intercalate [w] = w by simp [List.intercalate], tokens_append hw.1, List.nil_append, tokens_comment,
      endWord_word hw.2]
    rfl
  | cons v ws ih =>
    have hw := h w (by simp)
    have e : [','].intercalate (w :: v :: ws) ++ ';' :: cs = w ++ ',' :: ([','].intercalate (v :: ws) ++ ';' :: cs) := by
      simp [List.intercalate]
    rw [e, tokens_append hw.1, List.nil_append, tokens_comma, endWord_word hw.2, ih (fun x hx => h x (by simp [hx]))]
    rfl

/-- The numbers of such a list. -/
theorem numberList_listTokens {num : Nat → List Char} (h : ∀ n, number (num n) = some n) (n : Nat) (ns : List Nat) :
    numberList (listTokens ((n :: ns).map num)) = some (n :: ns) := by
  induction ns generalizing n with
  | nil => simp [listTokens, numberList, h]
  | cons m ns ih =>
    have := ih m
    simp only [List.map_cons] at this
    simp [listTokens, numberList, h, this]

/-- Digits read from left to right. -/
theorem digits_map {base : Nat} {spell : Nat → Char} {ds : List Nat} (h : ∀ d ∈ ds, digitValue base (spell d) = some d)
    (hu : ∀ d ∈ ds, spell d ≠ '_') (acc : Nat) :
    digits base acc (ds.map spell) = some (ds.foldl (fun a d => base * a + d) acc) := by
  induction ds generalizing acc with
  | nil => rfl
  | cons d ds ih =>
    have e : digits base acc (spell d :: ds.map spell) = digits base (acc * base + d) (ds.map spell) := by
      rw [digits.eq_3 _ _ _ _ (hu d (by simp)), h d (by simp)]
    rw [List.map_cons, e, ih (fun x hx => h x (by simp [hx])) (fun x hx => hu x (by simp [hx])), List.foldl_cons,
      Nat.mul_comm]

/-- Decimal: the digits of a word that does not begin with 0x. -/
theorem number_decimal {ch : Char} {cs : List Char} {d : Nat} (h : digitValue 10 ch = some d) (hx : cs.head? ≠ some 'x') :
    number (ch :: cs) = digits 10 d cs := by
  unfold number
  split
  · rename_i e
    obtain ⟨-, rfl⟩ := List.cons.inj e
    exact absurd rfl hx
  · rename_i e
    obtain ⟨rfl, rfl⟩ := List.cons.inj e
    rw [h]
  · rename_i e; cases e

/-- Hex: the digits behind 0x. -/
theorem number_hex {ch : Char} {d : Nat} (h : digitValue 16 ch = some d) (cs : List Char) :
    number ('0' :: 'x' :: ch :: cs) = digits 16 d cs := by
  rw [number.eq_1, h]

/-- The word of PUSH as a number. -/
theorem encode_push_ofNat {d : Nat} (h : d < 256) : encode (.push (BitVec.ofNat 8 d)) = BitVec.ofNat 64 (2 ^ 60 + d) := by
  apply BitVec.eq_of_toNat_eq
  rw [encode, packWord_eq, fieldsWord_toNat, pushField_toNat]
  simp
  omega

/-- The words of the pushes of a list of bytes. -/
theorem encode_pushBytes_ofNat {bs : List Nat} (h : ∀ b ∈ bs, b < 256) :
    (pushBytes (bs.map (BitVec.ofNat 8))).map encode = bs.map fun b => BitVec.ofNat 64 (2 ^ 60 + b) := by
  simp only [pushBytes, List.map_map]
  exact List.map_congr_left fun b hb => encode_push_ofNat (h b hb)

/-- The wire bytes of a header word written as a number (R74). -/
theorem headerBytes_ofNat (h : Nat) (hh : h < 2 ^ 32) : headerBytes (BitVec.ofNat 32 h) =
    [h / 2 ^ 24, h / 2 ^ 16 % 256, h / 2 ^ 8 % 256, h % 256].map (BitVec.ofNat 8) := by
  simp only [headerBytes, List.map_cons, List.map_nil]
  refine congrArg₂ _ (BitVec.eq_of_toNat_eq ?_) (congrArg₂ _ (BitVec.eq_of_toNat_eq ?_)
    (congrArg₂ _ (BitVec.eq_of_toNat_eq ?_) (congrArg₂ _ (BitVec.eq_of_toNat_eq ?_) rfl)))
  all_goals
    simp only [BitVec.extractLsb'_toNat, Nat.shiftRight_eq_div_pow, BitVec.toNat_ofNat]
    omega

end Sys2Proof.Machine
end

