-- ==== Sys2Proof/Laws/Framer.lean ====
section
/-! SUPPORT. What each command can do, said once: the cases of PUSH and PULL, and what every command leaves alone. -/

namespace Sys2Proof.Machine

/-- The three cases of PUSH (R111). -/
theorem push_cases (c : Config) (d : Byte) (s : State) :
    (s.faulted = true ∧ push c d s = respond s.err 0 0 [] s) ∨
    (s.faulted = false ∧ s.count = c.bufCap ∧ push c d s = respond 0x2 0 0 [] s) ∨
    (s.faulted = false ∧ s.count ≠ c.bufCap ∧
      push c d s = respond 0x0 (BitVec.ofNat 16 (s.count + 1)) 0 [] (storeByte c d s)) := by
  unfold push
  cases hf : s.faulted
  · by_cases hn : s.count = c.bufCap
    · exact .inr (.inl ⟨rfl, hn, by simp [hn, statusCode]⟩)
    · exact .inr (.inr ⟨rfl, hn, by simp [hn, statusCode]⟩)
  · exact .inl ⟨rfl, by simp⟩

/-- The five cases of PULL (R112). -/
theorem pull_cases (c : Config) (s : State) :
    (s.faulted = true ∧ pull c s = respond s.err 0 0 [] s) ∨
    (s.faulted = false ∧ classify c (bufferContent c s) = .noPacket ∧ pull c s = respond 0x1 0 0 [] s) ∨
    (∃ code, s.faulted = false ∧ classify c (bufferContent c s) = .fail code ∧
      pull c s = respond code 0 0 [] (latchFailure code s)) ∨
    (s.faulted = false ∧ classify c (bufferContent c s) = .take 0 ∧
      pull c s = respond 0xA 0 0 [] (latchFailure 0xA (consume c 4 s))) ∨
    (∃ n, s.faulted = false ∧ classify c (bufferContent c s) = .take (n + 1) ∧
      pull c s =
        respond 0x0 (BitVec.ofNat 16 (4 + (n + 1))) (hdrword ((bufferContent c s).take (4 + (n + 1))))
          ((bufferContent c s).take (4 + (n + 1))) (consume c (4 + (n + 1)) s)) := by
  unfold pull
  cases hf : s.faulted
  · cases hc : classify c (bufferContent c s) with
    | noPacket => exact .inr (.inl ⟨rfl, rfl, by simp [statusCode]⟩)
    | fail code => exact .inr (.inr (.inl ⟨code, rfl, rfl, by simp⟩))
    | take n =>
      cases n with
      | zero => exact .inr (.inr (.inr (.inl ⟨rfl, rfl, by simp [deliver, statusCode]⟩)))
      | succ n =>
        have h := (classify_take hc).2.2.2
        rw [bufferContent_length] at h
        refine .inr (.inr (.inr (.inr ⟨n, rfl, rfl, ?_⟩)))
        simp [deliver, statusCode, copyOut_eq_take h]
  · exact .inl ⟨rfl, by simp⟩

/-- What VALIDATE can do (R87): one response, no state change. -/
theorem validate_eq (c : Config) (n : BitVec 16) (h : HeaderWord) (s : State) :
    validate c n h s =
      if validateStatus c n.toNat h = .ok then respond 0x0 n h [] s
      else respond (statusCode (validateStatus c n.toNat h)) 0 0 [] s := by
  unfold validate
  cases validateStatus c n.toNat h <;> simp [statusCode]

/-- What BUILD can do (R88): one response, no state change. -/
theorem build_eq (c : Config) (n : BitVec 16) (t : BitVec 8) (e : BitVec 2) (s : State) :
    build c n t e s =
      if buildStatus c n.toNat t.toNat = .ok then
        respond 0x0 (BitVec.ofNat 16 (n.toNat + 4)) (buildHeader c n t e) [] s
      else respond (statusCode (buildStatus c n.toNat t.toNat)) 0 0 [] s := by
  unfold build
  cases buildStatus c n.toNat t.toNat <;> simp [statusCode]

/-- A stateless command: one response without a frame, everything else unchanged. -/
theorem exec_stateless {i : Instr} (hi : isStateless i = true) (s : State) :
    ∃ st rn rw, exec i s = .next (respond st rn rw [] s) := by
  cases i with
  | nop => exact ⟨_, _, _, rfl⟩
  | validate n h =>
    simp only [exec, execValidate, validate_eq]
    split <;> exact ⟨_, _, _, rfl⟩
  | build n t e =>
    simp only [exec, execBuild, build_eq]
    split <;> exact ⟨_, _, _, rfl⟩
  | status => exact ⟨_, _, _, rfl⟩
  | push d => cases hi
  | pull => cases hi
  | clear => cases hi

/-- Every command answers a next state (R164, R185). -/
theorem exec_next (i : Instr) (s : State) : ∃ t, exec i s = .next t := by
  cases i <;> exact ⟨_, rfl⟩

/-- PUSH adds one response and leaves the input alone. -/
theorem push_interface (c : Config) (d : Byte) (s : State) :
    (∃ r, (push c d s).out = s.out ++ [r]) ∧ (push c d s).input = s.input := by
  rcases push_cases c d s with ⟨_, e⟩ | ⟨_, _, e⟩ | ⟨_, _, e⟩ <;> rw [e] <;> exact ⟨⟨_, rfl⟩, rfl⟩

/-- PULL adds one response and leaves the input alone. -/
theorem pull_interface (c : Config) (s : State) :
    (∃ r, (pull c s).out = s.out ++ [r]) ∧ (pull c s).input = s.input := by
  rcases pull_cases c s with ⟨_, e⟩ | ⟨_, _, e⟩ | ⟨_, _, _, e⟩ | ⟨_, _, e⟩ | ⟨_, _, _, e⟩ <;> rw [e] <;>
    exact ⟨⟨_, rfl⟩, rfl⟩

/-- Every command adds one response and leaves the input alone (R188). -/
theorem exec_interface {i : Instr} {s t : State} (h : exec i s = .next t) :
    (∃ r, t.out = s.out ++ [r]) ∧ t.input = s.input := by
  by_cases hi : isStateless i = true
  · obtain ⟨st, rn, rw, e⟩ := exec_stateless hi s
    rw [e] at h
    cases h
    exact ⟨⟨_, rfl⟩, rfl⟩
  · cases i with
    | push d => cases h; exact push_interface _ _ _
    | pull => cases h; exact pull_interface _ _
    | clear => cases h; exact ⟨⟨_, rfl⟩, rfl⟩
    | nop => exact absurd rfl hi
    | validate n h => exact absurd rfl hi
    | build n t e => exact absurd rfl hi
    | status => exact absurd rfl hi

/-- A command word performed: the instruction it decodes to, or the answer to an illegal word (R63). -/
theorem perform_cases (w : Word) (s : State) :
    (∃ i, decode w = some i ∧ perform w s = exec i s) ∨ (decode w = none ∧ perform w s = .next (respond 0x3 0 0 [] s)) := by
  unfold perform
  cases hd : decode w with
  | none => exact .inr ⟨rfl, rfl⟩
  | some i => exact .inl ⟨i, rfl, rfl⟩

/-- What one step can be, by the event it takes. -/
theorem step_cases (s : State) :
    (s.input = [] ∧ step s = .refused .idle) ∨
    (∃ w rest, s.input = .command w :: rest ∧ step s = perform w { s with input := rest }) ∨
    (∃ draw rest, s.input = .reset draw :: rest ∧ step s = .next (takeReset Config.phfd draw { s with input := rest })) ∨
    (∃ w draw rest, s.input = .resetDuring w draw :: rest ∧
      step s = .next (takeReset Config.phfd draw { s with input := rest })) := by
  unfold step
  cases hs : s.input with
  | nil => exact .inl ⟨rfl, by rw [nextEvent_nil hs]⟩
  | cons e rest =>
    rw [nextEvent_cons hs]
    cases e with
    | command w => exact .inr (.inl ⟨w, rest, rfl, rfl⟩)
    | reset draw => exact .inr (.inr (.inl ⟨draw, rest, rfl, rfl⟩))
    | resetDuring w draw => exact .inr (.inr (.inr ⟨w, draw, rest, rfl, rfl⟩))

end Sys2Proof.Machine
end

