-- ==== Sys2Proof/Laws/PerInstr.lean ====
section
/-! SUPPORT. A statement about every instruction as syntax, one lemma per constructor: its word lies in its own row of the opcode
map (30_encoding.md R62, R63), so no fixed bit of the row is set by an operand. -/

namespace Sys2Proof.Laws.RowOfWord

/-- The instruction is well formed and its word is selected by its own row. -/
def Statement (i : Instr) : Prop := i.wellFormed = true ∧ i.row.selects (encode i) = true

theorem nop : Statement .nop := ⟨rfl, by decide⟩

theorem push (d : BitVec 8) : Statement (.push d) := by
  refine ⟨rfl, (rowPush_selects _ _ _ _).mpr ⟨rfl, rfl, rfl, ?_⟩⟩
  have := d.isLt
  simp only [BitVec.toNat_append, BitVec.toNat_ofNat]
  simpa using this

theorem pull : Statement .pull := ⟨rfl, by decide⟩

theorem validate (n : BitVec 16) (h : BitVec 32) : Statement (.validate n h) :=
  ⟨rfl, (rowValidate_selects _ _ _ _).mpr ⟨rfl, rfl⟩⟩

theorem build (n : BitVec 16) (t : BitVec 8) (e : BitVec 2) : Statement (.build n t e) := by
  refine ⟨rfl, (rowBuild_selects _ _ _ _).mpr ⟨rfl, rfl, ?_⟩⟩
  have := t.isLt
  have := e.isLt
  simp only [BitVec.toNat_append, BitVec.toNat_ofNat]
  rw [← Nat.shiftLeft_add_eq_or_of_lt t.isLt]
  simp [Nat.shiftLeft_eq]
  omega

theorem status : Statement .status := ⟨rfl, by decide⟩

theorem clear : Statement .clear := ⟨rfl, by decide⟩

end Sys2Proof.Laws.RowOfWord
end

