-- ==== Sys2Proof/Laws/Run.lean ====
section
/-! SUPPORT. Runs of commands, taken apart, and the stream loop unfolded once. -/

namespace Sys2Proof.Machine

/-- A run of a command and more is that command, then the rest. -/
theorem runCommands_cons {i : Instr} {is : List Instr} {s u : State} (h : runCommands (i :: is) s = .next u) :
    ∃ t, exec i s = .next t ∧ runCommands is t = .next u := by
  obtain ⟨t, ht⟩ := exec_next i s
  simp only [runCommands, ht] at h
  exact ⟨t, ht, h⟩

/-- Running `a` to `t` and then `b` from there is running `a ++ b`. -/
theorem runCommands_append {a b : List Instr} {s t : State} (h : runCommands a s = .next t) :
    runCommands (a ++ b) s = runCommands b t := by
  induction a generalizing s with
  | nil => cases h; rfl
  | cons i is ih =>
    obtain ⟨v, hv, hu⟩ := runCommands_cons h
    simp only [List.cons_append, runCommands, hv]
    exact ih hu

/-- A run of `a ++ b` passes through a state after `a`. -/
theorem runCommands_split (a b : List Instr) {s u : State} (h : runCommands (a ++ b) s = .next u) :
    ∃ t, runCommands a s = .next t ∧ runCommands b t = .next u := by
  induction a generalizing s with
  | nil => exact ⟨s, rfl, h⟩
  | cons i is ih =>
    obtain ⟨t, ht, hu⟩ := runCommands_cons h
    obtain ⟨v, hv, hv2⟩ := ih hu
    exact ⟨v, by simp only [runCommands, ht]; exact hv, hv2⟩

/-- A run adds one response per command. -/
theorem runCommands_out {cmds : List Instr} {s t : State} (h : runCommands cmds s = .next t) :
    ∃ rs, t.out = s.out ++ rs ∧ rs.length = cmds.length := by
  induction cmds generalizing s with
  | nil => cases h; exact ⟨[], by simp, rfl⟩
  | cons i is ih =>
    obtain ⟨v, hv, hu⟩ := runCommands_cons h
    obtain ⟨⟨r, hr⟩, _⟩ := exec_interface hv
    obtain ⟨rs, hrs, hl⟩ := ih hu
    exact ⟨r :: rs, by rw [hrs, hr]; simp, by simp [hl]⟩

/-- The fuel of the stream loop does not matter once it exceeds the length. -/
theorem streamLoop_fuel (c : Config) :
    ∀ (f g : Nat) (q : List Byte), q.length < f → q.length < g → streamLoop c f q = streamLoop c g q := by
  intro f
  induction f with
  | zero => intro g q h; omega
  | succ f ih =>
    intro g q h1 h2
    cases g with
    | zero => omega
    | succ g =>
      simp only [streamLoop]
      cases hc : classify c q with
      | noPacket => rfl
      | fail code => rfl
      | take n =>
        cases n with
        | zero => rfl
        | succ n =>
          have := (classify_take hc).2.2.2
          simp only []
          rw [ih g (q.drop (4 + (n + 1))) (by simp; omega) (by simp; omega)]

/-- One round of the loop of R115. -/
theorem streamFrames_eq (c : Config) (q : List Byte) :
    streamFrames c q =
      match classify c q with
      | .noPacket => ⟨[], 0x1, q⟩
      | .fail code => ⟨[], code, q⟩
      | .take 0 => ⟨[], 0xA, q.drop 4⟩
      | .take (n + 1) =>
        ⟨q.take (4 + (n + 1)) :: (streamFrames c (q.drop (4 + (n + 1)))).frames,
          (streamFrames c (q.drop (4 + (n + 1)))).last, (streamFrames c (q.drop (4 + (n + 1)))).rest⟩ := by
  unfold streamFrames
  rw [streamLoop]
  cases hc : classify c q with
  | noPacket => rfl
  | fail code => rfl
  | take n =>
    cases n with
    | zero => rfl
    | succ n =>
      have := (classify_take hc).2.2.2
      simp only []
      rw [streamLoop_fuel c q.length ((q.drop (4 + (n + 1))).length + 1) (q.drop (4 + (n + 1))) (by simp; omega) (by simp)]

end Sys2Proof.Machine
end

