-- ==== Sys2Proof/Tests/Slice0.lean ====
section
/-! SUPPORT. Tests. Decode tests take their words from 30_encoding.md R61 to R64 and R72, one-step tests from the vectors of
95_test_vectors.md (named in each docstring), and a witness theorem shows, for each statement with hypotheses, concrete values that
meet them all together. -/

namespace Sys2Proof.Tests

open Sys2Proof.Machine

/-! ### Small states -/

/-- The sample packet P1 of 95_test_vectors.md. -/
abbrev p1 : List Byte := [0x01, 0x45, 0x00, 0x03, 0x61, 0x62, 0x63]

/-- The sample packet P3 of 95_test_vectors.md, the shortest packet there is. -/
abbrev p3 : List Byte := [0x01, 0x81, 0x00, 0x01, 0xFF]

/-- A state whose buffer holds the bytes from HEAD = `head` on. -/
abbrev holding (head : Nat) (bytes : List Byte) : State :=
  bytes.foldl (fun s b => storeByte Config.phfd b s) { State.reset with head := head }

/-- A state with a latched failure. -/
abbrev failed (code : BitVec 4) (s : State) : State := latchFailure code s

/-- A state to which one event is offered. -/
abbrev offered (e : HostEvent) (s : State) : State := { s with input := [e] }

/-- A small build: MAX_PAYLOAD = 2 and the smallest buffer that R11 then allows. -/
abbrev tiny : Config := { version := 1, maxPayload := 2, maxTypeEnc := 62, bufCap := 5 }

/-- A full buffer of the small build, holding the shortest packet. -/
abbrev fullTiny : State := p3.foldl (fun s b => storeByte tiny b s) State.reset

/-- What a vector of 95_test_vectors.md shows of an outcome: RSP and (HEAD, COUNT, FAULTED, ERR). -/
def shown (o : Host.Outcome State Fault Refusal) : Option (Option Word × Nat × Nat × Bool × BitVec 4) :=
  (nextOf o).map fun t => ((lastResponse t).map responseWord, t.head, t.count, t.faulted, t.err)

/-- An outcome whose next state passes a check is a next state that passes it. -/
theorem reaches {o : Host.Outcome State Fault Refusal} {p : State → Bool} (h : (nextOf o).any p = true) :
    ∃ t, o = .next t ∧ p t = true := by
  cases o with
  | next t => exact ⟨t, rfl, h⟩
  | fault r => cases h
  | refused r => cases h

/-! ### Decoding, from words written out bit by bit -/

/-- OP = 0000, all other bits 0 (R61 format Z). -/
theorem test_decode_nop : decode 0x0000_0000_0000_0000 = some .nop := by decide
/-- OP = 0001, D = 0100_0101 in bits 7:0 (R61 format P), and both ends of D. -/
theorem test_decode_push : decode 0x1000_0000_0000_0045 = some (.push 0x45) ∧ decode 0x1000_0000_0000_00FF = some (.push 0xFF) ∧
    decode 0x1000_0000_0000_0000 = some (.push 0x00) := by decide
/-- OP = 0010 (R61 format Z). -/
theorem test_decode_pull : decode 0x2000_0000_0000_0000 = some .pull := by decide
/-- OP = 0011, N in bits 47:32, H in bits 31:0 (R61 format V); vectors V1 and V9. -/
theorem test_decode_validate : decode 0x3000_0007_0145_0003 = some (.validate 7 0x0145_0003) ∧
    decode 0x3000_FFFF_01C0_FFFB = some (.validate 0xFFFF 0x01C0_FFFB) := by decide
/-- OP = 0100, N in bits 47:32, E in bits 9:8, T in bits 7:0 (R61 format B); vectors B1 and B4. -/
theorem test_decode_build : decode 0x4000_0003_0000_0105 = some (.build 3 5 1) ∧
    decode 0x4000_0001_0000_03FF = some (.build 1 255 3) := by decide
/-- OP = 0101 (R61 format Z). -/
theorem test_decode_status : decode 0x5000_0000_0000_0000 = some .status := by decide
/-- OP = 0110 (R61 format Z). -/
theorem test_decode_clear : decode 0x6000_0000_0000_0000 = some .clear := by decide

/-! ### WellFormed: one ill-formed word for each check, refused by the check and by the decoder -/

/-- The reserved values of OP, 0x7 to 0xF (R62). -/
theorem test_illformed_reserved_op : ([0x7, 0x8, 0x9, 0xA, 0xB, 0xC, 0xD, 0xE, 0xF] : List Nat).all (fun op =>
    wellFormedWord (BitVec.ofNat 64 (op * 2 ^ 60)) == false && decode (BitVec.ofNat 64 (op * 2 ^ 60)) == none) = true := by decide
/-- Format Z with a bit of W, of N or of RSV set (R61). -/
theorem test_illformed_z : ([0x0000_0000_0000_0001, 0x2000_0001_0000_0000, 0x6001_0000_0000_0000] : List Word).all (fun w =>
    wellFormedWord w == false && decode w == none) = true := by decide
/-- Format P with bit 8 of W, a bit of N or a bit of RSV set (R61). -/
theorem test_illformed_p : ([0x1000_0000_0000_0101, 0x1000_0001_0000_0001, 0x1800_0000_0000_0001] : List Word).all (fun w =>
    wellFormedWord w == false && decode w == none) = true := by decide
/-- Format V with the lowest or the highest bit of RSV set (R61). -/
theorem test_illformed_v : ([0x3001_0007_0145_0003, 0x3800_0007_0145_0003] : List Word).all (fun w =>
    wellFormedWord w == false && decode w == none) = true := by decide
/-- Format B with bit 10 or bit 31 of W, or a bit of RSV, set (R61). -/
theorem test_illformed_b : ([0x4000_0003_0000_0405, 0x4000_0003_8000_0105, 0x4001_0003_0000_0105] : List Word).all (fun w =>
    wellFormedWord w == false && decode w == none) = true := by decide

/-! ### One step, from the vectors of 95_test_vectors.md -/

/-- U3: the byte after the end of BUF goes to BUF[0]. -/
theorem test_push_wraps : (nextOf (exec (.push 0x61) (holding 2044 [1, 2, 3, 4]))).map (fun t =>
    (memRead 0 t, memRead 2047 t, t.head, t.count)) = some (0x61, 0x04, 2044, 5) := by decide
/-- U5: a full buffer answers FULL. -/
theorem test_push_full : shown (exec (.push 0x61) { State.reset with count := 2048 }) =
    some (some 0x2000_0000_0000_0000, 0, 2048, false, 0) := by decide
/-- F9 at the wrap point (F12): P1 comes out whole. -/
theorem test_pull_frame : shown (exec .pull (holding 2044 p1)) = some (some 0x0000_0007_0145_0003, 3, 0, false, 0) ∧
    (nextOf (exec .pull (holding 2044 p1))).map (fun t => t.out.map (·.frame)) = some [p1] := by decide
/-- F3: a zero length consumes four bytes and fails. -/
theorem test_pull_empty_payload : shown (exec .pull (holding 0 [0x01, 0x45, 0x00, 0x00, 0x7F])) =
    some (some 0xA000_0000_0000_0000, 4, 1, true, 0xA) := by decide
/-- V1: P1's header passes. -/
theorem test_validate_ok : shown (exec (.validate 7 0x0145_0003) State.reset) = some (some 0x0000_0007_0145_0003, 0, 0, false, 0) := by
  decide
/-- V5: the version check comes first. -/
theorem test_validate_version_first : shown (exec (.validate 0 0x0045_0003) State.reset) =
    some (some 0x8000_0000_0000_0000, 0, 0, false, 0) := by decide
/-- B10: P3's header, encoding and type in their places. -/
theorem test_build_header : shown (exec (.build 1 1 2) State.reset) = some (some 0x0000_0005_0181_0001, 0, 0, false, 0) := by decide
/-- B7: the size check comes before the type check. -/
theorem test_build_size_first : shown (exec (.build 1020 63 0) State.reset) = some (some 0xC000_0000_0000_0000, 0, 0, false, 0) := by
  decide
/-- S6: READY with an oversize header waiting. -/
theorem test_status_ready : shown (exec .status (holding 0 [0x01, 0x00, 0x03, 0xFB])) =
    some (some 0x0000_0004_0000_0002, 0, 4, false, 0) := by decide
/-- S9: FAULTED and ERR in their places. -/
theorem test_status_faulted : shown (exec .status (failed 0xA (holding 4 [0x7F]))) =
    some (some 0x0000_0001_0000_00A1, 4, 1, true, 0xA) := by decide
/-- C1v: CLEAR leaves the FAULTED state. -/
theorem test_clear : shown (exec .clear (failed 0x8 (holding 0 p1))) = some (some 0, 0, 0, false, 0) := by decide
/-- NOP changes nothing, faulted or not (R140). -/
theorem test_nop : shown (exec .nop (failed 0x9 (holding 0 [1]))) = some (some 0, 0, 1, true, 0x9) := by decide
/-- R143: an illegal word while faulted is answered ILLEGAL. -/
theorem test_step_illegal : shown (step (offered (.command 0x7000_0000_0000_0000) (failed 0x8 (holding 0 [2])))) =
    some (some 0x3000_0000_0000_0000, 0, 1, true, 0x8) := by decide
/-- The host's word is the instruction, and the next step runs it. -/
theorem test_table_word : decodeTableWord 64 0x4000_0003_0000_0105 = some (.build 3 5 1) ∧
    shown (step (State.reset.withFetchWord 64 0x4000_0003_0000_0105)) = some (some 0x0000_0007_0145_0003, 0, 0, false, 0) := by decide
/-- R73: `PUSH 0x45 ; x` is the word of R73's table, a byte of 256 is an error, and a comment alone is blank. -/
theorem test_assembler : assembleText ['P', 'U', 'S', 'H', ' ', '0', 'x', '4', '5', ' ', ';', 'x'] = .words [0x1000_0000_0000_0045] ∧
    assembleText ['P', 'U', 'S', 'H', ' ', '2', '5', '6'] = .error ∧ assembleText [';', 'x'] = .blank := by decide

/-! ### Witnesses: the hypotheses of each statement, met together -/

theorem witness_StepRunsDecodedInstruction : (State.reset.withFetchWord 64 0x1000_0000_0000_0045).input =
    [.command 0x1000_0000_0000_0045] ∧ decode 0x1000_0000_0000_0045 = some (.push 0x45) := by decide

theorem witness_StepAnswersIllegalWord : (offered (.command 0xF000_0000_0000_0000) (failed 0x8 State.reset)).input =
    [.command 0xF000_0000_0000_0000] ∧ ∀ r ∈ opcodeRows, (0xF000_0000_0000_0000 : Word) &&& r.mask ≠ r.value := by decide

theorem witness_OfferedEventIsTakenIdleHasNoStep : State.reset.input = [] ∧
    (offered (.command 0) State.reset).input = [.command 0] ∧ (offered (.reset []) State.reset).input = [.reset []] ∧
    (offered (.resetDuring 0 []) State.reset).input = [.resetDuring 0 []] := by decide

/-- A delivered frame, an empty PULL, an illegal word, and the two kinds of reset. -/
theorem witness_OneResponsePerCommandInOrder :
    (Inv Config.phfd (offered (.command 0x2000_0000_0000_0000) (holding 0 p3)) ∧ decode 0x2000_0000_0000_0000 = some .pull ∧
      ∃ t, step (offered (.command 0x2000_0000_0000_0000) (holding 0 p3)) = .next t ∧ t.out = [] ++ [⟨0, 5, 0x0181_0001, p3⟩]) ∧
    (∃ t, step (offered (.command 0x2000_0000_0000_0000) State.reset) = .next t ∧ t.out = [] ++ [⟨1, 0, 0, []⟩]) ∧
    (∃ t, step (offered (.command 0xF000_0000_0000_0000) (holding 0 p1)) = .next t ∧ t.out = [] ++ [⟨3, 0, 0, []⟩]) ∧
    (∃ t, step (offered (.reset [(3, 9)]) (holding 0 p1)) = .next t) ∧
    ∃ t, step (offered (.resetDuring 0 []) (holding 0 p1)) = .next t :=
  ⟨⟨by decide, by decide, _, rfl, by decide⟩, ⟨_, rfl, by decide⟩, ⟨_, rfl, by decide⟩, ⟨_, rfl⟩, _, rfl⟩

theorem witness_OfferedWordsRunAsCommands :
    ∃ t, runCommands [.push 1, .pull, .clear] { State.reset with input := [.reset []] } = .next t := ⟨_, rfl⟩

/-- Both ends of every operand. -/
theorem witness_DecodeReadsExactlyTheOpcodeMap : decode 0x1000_0000_0000_00FF = some (.push 0xFF) ∧
    decode 0x3000_FFFF_FFFF_FFFF = some (.validate 0xFFFF 0xFFFF_FFFF) ∧ decode 0x3000_0000_0000_0000 = some (.validate 0 0) ∧
    decode 0x4000_FFFF_0000_03FF = some (.build 0xFFFF 0xFF 3) ∧ decode 0x4000_0000_0000_0000 = some (.build 0 0 0) := by decide

theorem witness_DecodeSelectsTheOneMatchingRow : decode 0x1000_0000_0000_00FF = some (.push 0xFF) ∧ rowPush ∈ opcodeRows ∧
    (0x1000_0000_0000_00FF : Word) &&& rowPush.mask = rowPush.value ∧ decode 0x1000_0000_0000_0100 = none := by decide

theorem witness_DecodeOfEncodeIsTheInstruction : (Instr.build 1 2 3).wellFormed = true ∧
    decode 0x4000_0001_0000_0302 = some (.build 1 2 3) := by decide

/-- Each range at its two ends. -/
theorem witness_AssemblerNeverMakesAnIllegalWord : assembleText ['C', 'L', 'E', 'A', 'R'] = .words [0x6000_0000_0000_0000] ∧
    assemble (.push 255) = some [0x1000_0000_0000_00FF] ∧ assemble (.push 256) = none ∧
    assemble (.validate 0xFFFF_FFFF 65535) = some [0x3000_FFFF_FFFF_FFFF] ∧ assemble (.validate 0x1_0000_0000 0) = none ∧
    assemble (.validate 0 65536) = none ∧ assemble (.build 255 3 65535) = some [0x4000_FFFF_0000_03FF] ∧
    assemble (.build 256 0 0) = none ∧ assemble (.build 0 4 0) = none ∧ assemble (.build 0 0 65536) = none ∧
    assemble (.pushb [255, 256]) = none ∧ assemble (.send 0x1_0000_0000 []) = none ∧ assemble (.send 0 [256]) = none ∧
    assemble (.send 0x0181_0001 [255]) = some [0x1000_0000_0000_0001, 0x1000_0000_0000_0081, 0x1000_0000_0000_0000,
      0x1000_0000_0000_0001, 0x1000_0000_0000_00FF] := by decide

/-- The decimal digits of a number no greater than the fuel. -/
def spell : Nat → Nat → List Nat
  | 0, n => [n]
  | fuel + 1, n => if n < 10 then [n] else spell fuel (n / 10) ++ [n % 10]

theorem spell_spec {fuel n : Nat} (h : n ≤ fuel) : spell fuel n ≠ [] ∧ (∀ d ∈ spell fuel n, d < 10) ∧
    (spell fuel n).foldl (fun a d => 10 * a + d) 0 = n := by
  induction fuel generalizing n with
  | zero => obtain rfl : n = 0 := by omega
            decide
  | succ fuel ih =>
    by_cases hn : n < 10
    · rw [spell, if_pos hn]
      exact ⟨by simp, by simpa using hn, by simp⟩
    · obtain ⟨-, h2, h3⟩ := ih (n := n / 10) (by omega)
      rw [spell, if_neg hn, List.foldl_append, h3]
      refine ⟨by simp, fun d hd => ?_, ?_⟩
      · rcases List.mem_append.mp hd with hd | hd
        · exact h2 d hd
        · simp only [List.mem_singleton] at hd; omega
      · simp only [List.foldl_cons, List.foldl_nil]; omega

/-- The decimal digits as characters. -/
theorem digitChar_spec : ∀ d < 10, digitValue 10 (Char.ofNat (48 + d)) = some d ∧ Char.ofNat (48 + d) ≠ '_' ∧
    Char.ofNat (48 + d) ≠ 'x' ∧ Char.ofNat (48 + d) ∉ [' ', '\t', ',', '=', ';'] := by decide

/-- Digits at both ends of the two bases; and a spelling of every number that `number` reads and that holds no separator. -/
theorem witness_AssemblerReadsEachLineForm : number ['0', '9'] = some 9 ∧ number ['0', 'x', '0', 'f'] = some 15 ∧
    number ['0', 'x', 'F', '0'] = some 240 ∧ ∃ num : Nat → List Char,
      ∀ n, number (num n) = some n ∧ ∀ ch ∈ num n, ch ∉ [' ', '\t', ',', '=', ';'] := by
  refine ⟨by decide, by decide, by decide, fun n => (spell n n).map fun d => Char.ofNat (48 + d), fun n => ⟨?_, fun ch hc => ?_⟩⟩
  · obtain ⟨h1, h2, h3⟩ := spell_spec (Nat.le_refl n)
    show number ((spell n n).map _) = some n
    cases hs : spell n n with
    | nil => exact absurd hs h1
    | cons d ds =>
      rw [hs] at h2 h3
      have key := fun x hx => digitChar_spec x (h2 x hx)
      rw [List.map_cons, number_decimal (key d (by simp)).1, digits_map (fun x hx => (key x (by simp [hx])).1)
        (fun x hx => (key x (by simp [hx])).2.1), ← h3, List.foldl_cons]
      · simp
      · cases ds with
        | nil => simp
        | cons y ys => simpa using (key y (by simp)).2.2.1
  · obtain ⟨d, hd, rfl⟩ := List.mem_map.mp hc
    exact (digitChar_spec d ((spell_spec (Nat.le_refl n)).2.1 d hd)).2.2.2

/-- A delivered frame, and a failure. -/
theorem witness_ResponseLayoutAndFrame :
    (Inv Config.phfd (offered (.command 0x2000_0000_0000_0000) (holding 0 p3)) ∧ decode 0x2000_0000_0000_0000 = some .pull ∧
      ∃ t, step (offered (.command 0x2000_0000_0000_0000) (holding 0 p3)) = .next t ∧ t.out = [] ++ [⟨0, 5, 0x0181_0001, p3⟩]) ∧
    Inv Config.phfd (offered (.command 0x2000_0000_0000_0000) (holding 0 [2, 0, 0, 0])) ∧
      ∃ t, step (offered (.command 0x2000_0000_0000_0000) (holding 0 [2, 0, 0, 0])) = .next t ∧ t.out = [] ++ [⟨8, 0, 0, []⟩] :=
  ⟨⟨by decide, by decide, _, rfl, by decide⟩, by decide, _, rfl, by decide⟩

theorem witness_OnlyDefinedStatusCodesAreReturned : Inv Config.phfd (offered (.command 0x4000_0000_0000_0000) State.reset) ∧
    ∃ t, step (offered (.command 0x4000_0000_0000_0000) State.reset) = .next t ∧ t.out = [] ++ [⟨0xA, 0, 0, []⟩] :=
  ⟨by decide, _, rfl, by decide⟩

/-- The statement has no hypothesis; the first and the last byte of BUF after a reset. -/
theorem witness_ResetStartsAFreshFramer : ∃ t, step (offered (.reset [(0, 5), (2047, 7)]) (failed 0x9 (holding 0 p1))) = .next t ∧
    (memRead 0 t, memRead 1 t, memRead 2047 t, t.faulted) = (5, 0, 7, false) :=
  ⟨_, rfl, by decide⟩

theorem witness_ResetOvertakesACommand :
    (offered (.resetDuring 0x1000_0000_0000_0045 []) (holding 0 p1)).input = [.resetDuring 0x1000_0000_0000_0045 []] := rfl

theorem witness_NopOnlyAnswersOk : (0 : Word) &&& 0xFFFF_FFFF_FFFF_FFFF = 0 := by decide

theorem witness_StatusReportsCountAndFlags :
    (0x5000_0000_0000_0000 : Word) &&& 0xFFFF_FFFF_FFFF_FFFF = 0x5000_0000_0000_0000 := by decide

theorem witness_ClearStartsAFreshFramer :
    (0x6000_0000_0000_0000 : Word) &&& 0xFFFF_FFFF_FFFF_FFFF = 0x6000_0000_0000_0000 ∧
      ∃ t, exec .clear (failed 0x8 (holding 0 p1)) = .next t ∧ (failed 0x8 (holding 0 p1)).faulted = true ∧ t.faulted = false :=
  ⟨by decide, _, rfl, rfl, rfl⟩

theorem witness_StatelessCommandsAreIdempotent : isStateless .nop = true ∧ isStateless .status = true ∧
    isStateless (.validate 7 0x0145_0003) = true ∧ isStateless (.build 1 1 2) = true := by decide

theorem witness_ValidateChecksVersionThenLength :
    (0x3000_FFFF_FFFF_FFFF : Word) &&& 0xFFFF_0000_0000_0000 = 0x3000_0000_0000_0000 := by decide

theorem witness_BuildMakesTheHeaderWord :
    (0x4000_FFFF_0000_03FF : Word) &&& 0xFFFF_0000_FFFF_FC00 = 0x4000_0000_0000_0000 := by decide

/-- The smallest and the largest payload, and the largest type. -/
theorem witness_BuildThenValidateRoundTrip : Config.phfd.Valid ∧ (62 : BitVec 8).toNat ≤ Config.phfd.maxTypeEnc ∧
    1 ≤ (1 : BitVec 16).toNat ∧ (1019 : BitVec 16).toNat ≤ Config.phfd.maxPayload ∧ (1019 : BitVec 16).toNat + 4 < 2 ^ 16 := by decide

/-- The three cases, the last two on either side of a full buffer. -/
theorem witness_PushStoresOneByteEchoesOrAnswersFull :
    (0x1000_0000_0000_00FF : Word) &&& 0xFFFF_FFFF_FFFF_FF00 = 0x1000_0000_0000_0000 ∧
    ((failed 0x8 (holding 0 p1)).buf.wf ∧ (failed 0x8 (holding 0 p1)).faulted = true) ∧
    (({ holding 0 p1 with count := 2048 } : State).buf.wf ∧ ({ holding 0 p1 with count := 2048 } : State).faulted = false) ∧
    (({ holding 0 p1 with count := 2047 } : State).buf.wf ∧ ({ holding 0 p1 with count := 2047 } : State).faulted = false ∧
      ({ holding 0 p1 with count := 2047 } : State).count ≠ 2048) := by decide

theorem witness_PullDecidesThenDeliversOrFails :
    (0x2000_0000_0000_0000 : Word) &&& 0xFFFF_FFFF_FFFF_FFFF = 0x2000_0000_0000_0000 := by decide

/-- A payload, and none. -/
theorem witness_LogicalContentGrowsAndShrinksAsAList : ((holding 2044 p1).buf.wf ∧ (holding 2044 p1).faulted = false ∧
      (holding 2044 p1).count < Config.phfd.bufCap ∧ classify Config.phfd (bufferContent Config.phfd (holding 2044 p1)) = .take 3) ∧
    (holding 0 [1, 0, 0, 0]).buf.wf ∧ (holding 0 [1, 0, 0, 0]).faulted = false ∧
      classify Config.phfd (bufferContent Config.phfd (holding 0 [1, 0, 0, 0])) = .take 0 := by decide

theorem witness_ClassifyIsMonotone : classify Config.phfd p3 ≠ .noPacket ∧ classify Config.phfd [2, 0, 0, 0] ≠ .noPacket ∧
    ∃ t, exec .pull (holding 0 [1, 0, 0]) = .next t ∧ t.out = [] ++ [⟨0x1, 0, 0, []⟩] :=
  ⟨by decide, by decide, _, rfl, by decide⟩

/-- Two buffers that differ in a payload byte only. -/
theorem witness_DecisionReadsHeaderAndLengthOnly : holding 0 p3 ≠ holding 9 [0x01, 0x81, 0x00, 0x01, 0xFE] ∧
    (holding 9 [0x01, 0x81, 0x00, 0x01, 0xFE]).count = (holding 0 p3).count ∧
    (bufferContent Config.phfd (holding 9 [0x01, 0x81, 0x00, 0x01, 0xFE])).take 4 =
      (bufferContent Config.phfd (holding 0 p3)).take 4 ∧
    (∃ r, (pull Config.phfd (holding 0 p3)).out = [] ++ [r]) ∧
      ∃ r, (pull Config.phfd (holding 9 [0x01, 0x81, 0x00, 0x01, 0xFE])).out = [] ++ [r] :=
  ⟨by decide, rfl, by decide, ⟨_, rfl⟩, _, rfl⟩

/-- The longest frame of the small build, and a short one of the default build. -/
theorem witness_DeliveredFrameIsAPacket : (tiny.Valid ∧ fullTiny.faulted = false ∧
      (pull tiny fullTiny).out = [] ++ [⟨0x0, 5, 0x0181_0001, p3⟩]) ∧
    Config.phfd.Valid ∧ (holding 0 p1).faulted = false ∧
      (pull Config.phfd (holding 0 p1)).out = [] ++ [⟨0x0, 7, 0x0145_0003, p1⟩] := by decide

theorem witness_FullBufferNeverStalls : (tiny.Valid ∧ fullTiny.count = tiny.bufCap ∧ fullTiny.faulted = false) ∧
    Config.phfd.Valid ∧ ({ State.reset with count := 2048 } : State).count = Config.phfd.bufCap := by decide

/-- Each of the three codes, with a PUSH, a STATUS and a PULL after it. -/
theorem witness_FailureIsStickyUntilClear :
    (∃ s' t, exec .pull (holding 0 [2, 0, 0, 1]) = .next s' ∧ s'.out = [] ++ [⟨0x8, 0, 0, []⟩] ∧
      runCommands [.push 1, .status, .pull] s' = .next t) ∧
    (∃ s' t, exec .pull (holding 0 [1, 0, 3, 0xFB]) = .next s' ∧ s'.out = [] ++ [⟨0x9, 0, 0, []⟩] ∧
      runCommands [.push 1, .status, .pull] s' = .next t) ∧
    (∃ s' t, exec .pull (holding 0 [1, 0, 0, 0]) = .next s' ∧ s'.out = [] ++ [⟨0xA, 0, 0, []⟩] ∧
      runCommands [.push 1, .status, .pull] s' = .next t) ∧
    ∀ i ∈ [Instr.push 1, .status, .pull], i ≠ .clear :=
  ⟨⟨_, _, rfl, by decide, rfl⟩, ⟨_, _, rfl, by decide, rfl⟩, ⟨_, _, rfl, by decide, rfl⟩, by decide⟩

/-- Into the FAULTED state, out of it three ways, and staying there. -/
theorem witness_FaultedEnteredByPullLeftByClearOrReset :
    (∃ t, step (offered (.command 0x2000_0000_0000_0000) (holding 0 [2, 0, 0, 0])) = .next t ∧ t.faulted = true) ∧
    (∃ t, step (offered (.command 0x6000_0000_0000_0000) (failed 0x9 State.reset)) = .next t ∧ t.faulted = false) ∧
    (∃ t, step (offered (.reset []) (failed 0x9 State.reset)) = .next t ∧ t.faulted = false) ∧
    (∃ t, step (offered (.resetDuring 0 []) (failed 0x9 State.reset)) = .next t ∧ t.faulted = false) ∧
    ∃ t, step (offered (.command 0x2000_0000_0000_0000) (failed 0x9 State.reset)) = .next t ∧ t.faulted = true :=
  ⟨⟨_, rfl, by decide⟩, ⟨_, rfl, by decide⟩, ⟨_, rfl, by decide⟩, ⟨_, rfl, by decide⟩, _, rfl, by decide⟩

theorem witness_StepKeepsStateInvariant : Inv Config.phfd (offered (.command 0x1000_0000_0000_0000) (failed 0xA (holding 2044 p1))) ∧
    ∃ t, step (offered (.command 0x1000_0000_0000_0000) (failed 0xA (holding 2044 p1))) = .next t := ⟨by decide, _, rfl⟩

theorem witness_RingBufferRefinesListModel : Inv Config.phfd (holding 2044 p1) ∧
    ∃ t, exec .pull (holding 2044 p1) = .next t := ⟨by decide, _, rfl⟩

/-- The same content at two places, with a byte left over outside it. -/
theorem witness_HiddenStateNeverShows : Inv Config.phfd (offered (.command 0x2000_0000_0000_0000) (holding 2044 p3)) ∧
    Inv Config.phfd (memWrite 100 9 (offered (.command 0x2000_0000_0000_0000) (holding 7 p3))) ∧
    observe Config.phfd (memWrite 100 9 (offered (.command 0x2000_0000_0000_0000) (holding 7 p3))) =
      observe Config.phfd (offered (.command 0x2000_0000_0000_0000) (holding 2044 p3)) ∧
    ∃ t, step (offered (.command 0x2000_0000_0000_0000) (holding 2044 p3)) = .next t :=
  ⟨by decide, by decide, by decide, _, rfl⟩

/-- P3 with an early PULL in it and a PULL after it. -/
abbrev splitCommands : List Instr := [.push 0x01, .pull, .push 0x81, .push 0x00, .push 0x01, .push 0xFF, .pull]

/-- The responses to P3 with an early PULL in it and a PULL after it. -/
abbrev splitResponses : List Response :=
  [⟨0, 1, 0, []⟩, ⟨1, 0, 0, []⟩, ⟨0, 2, 0, []⟩, ⟨0, 3, 0, []⟩, ⟨0, 4, 0, []⟩, ⟨0, 5, 0, []⟩, ⟨0, 5, 0x0181_0001, p3⟩]

/-- A header of the wrong version. -/
abbrev failingCommands : List Instr := [.push 0x02, .push 0x81, .push 0x00, .push 0x01]

/-- The responses to it. -/
abbrev failingResponses : List Response := [⟨0, 1, 0, []⟩, ⟨0, 2, 0, []⟩, ⟨0, 3, 0, []⟩, ⟨0, 4, 0, []⟩]

/-- NONE and VERSION_MISMATCH as responses. -/
abbrev noneYet : Response := ⟨1, 0, 0, []⟩
abbrev versionMismatch : Response := ⟨8, 0, 0, []⟩

/-- What the two runs answer. -/
theorem test_split_stream : (nextOf (runCommands (splitCommands ++ [Instr.pull]) State.reset)).any (fun t =>
    decide (t.out = splitResponses ++ [noneYet])) = true := by decide +kernel
theorem test_failing_stream : (nextOf (runCommands (failingCommands ++ [Instr.pull]) State.reset)).any (fun t =>
    decide (t.out = failingResponses ++ [versionMismatch])) = true := by decide +kernel

/-- A packet, split by an early PULL, that ends in NONE; and a stream that ends in a failure. -/
theorem witness_FragmentationInvariance :
    (∃ t, runCommands (splitCommands ++ [Instr.pull]) State.reset = .next t ∧ decide (t.out = splitResponses ++ [noneYet]) = true) ∧
    (∃ t, runCommands (failingCommands ++ [Instr.pull]) State.reset = .next t ∧
      decide (t.out = failingResponses ++ [versionMismatch]) = true) ∧
    (∀ r ∈ splitResponses ++ failingResponses, r.st ≠ 0x2) ∧ noneYet.st ≠ 0x0 ∧ versionMismatch.st ≠ 0x0 ∧
    (∀ i ∈ splitCommands ++ failingCommands, i ≠ Instr.clear) ∧ deliveredFrames (splitResponses ++ [noneYet]) = [p3] :=
  ⟨reaches test_split_stream, reaches test_failing_stream, by decide, by decide, by decide, by decide, by decide⟩

theorem witness_PushedPacketsAreDeliveredInOrder : Inv Config.phfd (holding 2047 []) ∧
    (∀ f ∈ [p3, p1], IsPacket Config.phfd f ∧ packetLength f ≤ 1018) ∧ [p3, p1].flatten.length ≤ 2048 := by decide

/-- A payload of one byte, of 1018 and of 1019. -/
theorem witness_BuiltPacketComesThroughTheFramer :
    (Inv Config.phfd State.reset ∧ (62 : BitVec 8).toNat ≤ 62) ∧
    (([0xFF] : List Byte).length = (1 : BitVec 16).toNat ∧
      ∃ sb, exec (.build 1 1 2) State.reset = .next sb ∧ sb.out = [] ++ [⟨0x0, 5, 0x0181_0001, []⟩]) ∧
    ((List.replicate 1018 (0x55 : Byte)).length = (1018 : BitVec 16).toNat ∧
      ∃ sb, exec (.build 1018 62 3) State.reset = .next sb ∧ sb.out = [] ++ [⟨0x0, 1022, 0x01FE_03FA, []⟩]) ∧
    (List.replicate 1019 (0x55 : Byte)).length = (1019 : BitVec 16).toNat ∧
      ∃ sb, exec (.build 1019 0 3) State.reset = .next sb ∧ sb.out = [] ++ [⟨0x0, 1023, 0x01C0_03FB, []⟩] :=
  ⟨by decide, ⟨rfl, _, rfl, by decide⟩, ⟨List.length_replicate, _, rfl, by decide⟩, List.length_replicate, _, rfl, by decide⟩

theorem witness_DeliveredBytesArePrefixOfAcceptedBytes :
    ∃ t rs, runCommands [.push 0x01, .push 0x81, .push 0x00, .push 0x01, .push 0xFF, .push 0x01, .pull] State.reset = .next t ∧
      t.out = [] ++ rs ∧ deliveredFrames rs = [p3] :=
  ⟨_, _, rfl, rfl, by decide⟩

theorem witness_DrainedHostNeverSeesFull : Inv Config.phfd (holding 0 [1, 0, 0]) ∧
    (drain Config.phfd (holding 0 [1, 0, 0])).faulted = false ∧ (List.replicate 1024 (0 : Byte)).length ≤ 1024 :=
  ⟨by decide, by decide, List.length_replicate.le⟩

theorem witness_InstancesAreIndependent : [State.reset, offered (.command 0) State.reset][1]? = some (offered (.command 0) State.reset) ∧
    ∃ t, step (offered (.command 0) State.reset) = .next t := ⟨rfl, _, rfl⟩

theorem witness_PacketAccessorsReadTheHeader : IsPacket Config.phfd p1 ∧ IsPacket Config.phfd p3 := by decide

/-- A destination one byte short, and one that just fits. -/
theorem witness_ReadIntoCopiesOrLeavesDestination : ([0, 0, 0, 0] : List Byte).length < p3.length ∧
    p3.length ≤ ([0, 0, 0, 0, 0] : List Byte).length := by decide

end Sys2Proof.Tests
end

section
/-! PROOFS. The family of 10_state.md: what a step keeps of the state, the list reading of the buffer, reset, and the flags. -/

namespace Sys2Proof.Machine

/-! ### One rule per operation -/

/-- What a command can do to the state: a stateless one only answers, and the other three are their operations. -/
theorem exec_cases {i : Instr} {s t : State} (h : exec i s = .next t) :
    (isStateless i = true ∧ ∃ st rn rw, t = respond st rn rw [] s) ∨
    (∃ d, i = .push d ∧ t = push Config.phfd d s) ∨
    (i = .pull ∧ t = pull Config.phfd s) ∨
    (i = .clear ∧ t = respond 0x0 0 0 [] (restart s)) := by
  by_cases hi : isStateless i = true
  · obtain ⟨st, rn, rw, e⟩ := exec_stateless hi s
    rw [e] at h
    cases h
    exact .inl ⟨hi, st, rn, rw, rfl⟩
  · cases i with
    | push d => cases h; exact .inr (.inl ⟨d, rfl, rfl⟩)
    | pull => cases h; exact .inr (.inr (.inl ⟨rfl, rfl⟩))
    | clear => cases h; exact .inr (.inr (.inr ⟨rfl, rfl⟩))
    | nop | validate | build | status => exact absurd rfl hi

/-- A step that takes a command word performs it. -/
theorem step_command {s : State} {w : Word} {rest : List HostEvent} (h : s.input = .command w :: rest) :
    step s = perform w { s with input := rest } := by
  simp [step, nextEvent_cons h]

/-- A step that takes a reset starts the framer afresh. -/
theorem step_reset {s : State} {draw : List Host.Cell} {rest : List HostEvent} (h : s.input = .reset draw :: rest) :
    step s = .next (takeReset Config.phfd draw { s with input := rest }) := by
  simp [step, nextEvent_cons h]

/-- A step that takes a reset together with a command word is that reset. -/
theorem step_resetDuring {s : State} {w : Word} {draw : List Host.Cell} {rest : List HostEvent}
    (h : s.input = .resetDuring w draw :: rest) :
    step s = .next (takeReset Config.phfd draw { s with input := rest }) := by
  simp [step, nextEvent_cons h]

/-! ### The invariant (R27) -/

theorem Inv.respond {c : Config} {s : State} (h : Inv c s) (st : BitVec 4) (rn : BitVec 16) (rw : BitVec 32)
    (f : List Byte) : Inv c (respond st rn rw f s) := h

/-- Storing a byte keeps the invariant while the buffer is not full. -/
theorem Inv.storeByte {c : Config} {s : State} (h : Inv c s) (hroom : s.count ≠ c.bufCap) (d : Byte) :
    Inv c (storeByte c d s) := by
  obtain ⟨hflags, hcode, hcount, hhead, hwf, hrange⟩ := h
  exact ⟨hflags, hcode, Nat.lt_of_le_of_ne hcount hroom, hhead, hwf.writeCells _ _,
    writeCells_lt hrange (Nat.mod_lt _ (Nat.zero_lt_of_lt hhead)) d⟩

theorem Inv.consume {c : Config} {s : State} (h : Inv c s) (k : Nat) : Inv c (consume c k s) := by
  obtain ⟨hflags, hcode, hcount, hhead, hwf, hrange⟩ := h
  exact ⟨hflags, hcode, (Nat.sub_le _ _).trans hcount, Nat.mod_lt _ (Nat.zero_lt_of_lt hhead), hwf, hrange⟩

/-- Latching one of the three framer failures keeps the invariant. -/
theorem Inv.latchFailure {c : Config} {s : State} (h : Inv c s) {code : BitVec 4}
    (hcode : code = 0x8 ∨ code = 0x9 ∨ code = 0xA) : Inv c (latchFailure code s) := by
  obtain ⟨-, -, hcells⟩ := h
  refine ⟨?_, .inr hcode, hcells⟩
  rcases hcode with rfl | rfl | rfl <;> simp

theorem Inv.restart {c : Config} {s : State} (h : Inv c s) : Inv c (restart s) := by
  obtain ⟨-, -, -, hhead, hcells⟩ := h
  exact ⟨by simp, .inl rfl, Nat.zero_le _, Nat.zero_lt_of_lt hhead, hcells⟩

/-- A reset establishes the invariant, whatever BUF then holds. -/
theorem inv_takeReset {c : Config} (hc : 0 < c.bufCap) (draw : List Host.Cell) (s : State) :
    Inv c (takeReset c draw s) :=
  ⟨by simp, .inl rfl, Nat.zero_le _, hc, bufferOf_wf c draw, bufferOf_lt hc draw⟩

theorem Inv.push {c : Config} {s : State} (h : Inv c s) (d : Byte) : Inv c (push c d s) := by
  rcases push_cases c d s with ⟨-, e⟩ | ⟨-, -, e⟩ | ⟨-, hroom, e⟩ <;> rw [e]
  · exact h.respond _ _ _ _
  · exact h.respond _ _ _ _
  · exact (h.storeByte hroom d).respond _ _ _ _

theorem Inv.pull {c : Config} {s : State} (h : Inv c s) : Inv c (pull c s) := by
  rcases pull_cases c s with ⟨-, e⟩ | ⟨-, -, e⟩ | ⟨code, -, hc, e⟩ | ⟨-, -, e⟩ | ⟨n, -, -, e⟩ <;> rw [e]
  · exact h.respond _ _ _ _
  · exact h.respond _ _ _ _
  · have hcode : code = 0x8 ∨ code = 0x9 := (classify_fail hc).1
    exact (h.latchFailure (hcode.imp_right .inl)).respond _ _ _ _
  · exact ((h.consume 4).latchFailure (.inr (.inr rfl))).respond _ _ _ _
  · exact (h.consume _).respond _ _ _ _

/-- Every command keeps the invariant. -/
theorem Inv.exec {i : Instr} {s t : State} (h : Inv Config.phfd s) (ht : exec i s = .next t) : Inv Config.phfd t := by
  rcases exec_cases ht with ⟨-, _, _, _, rfl⟩ | ⟨d, -, rfl⟩ | ⟨-, rfl⟩ | ⟨-, rfl⟩
  · exact h.respond _ _ _ _
  · exact h.push d
  · exact h.pull
  · exact h.restart.respond _ _ _ _

theorem Inv.perform {w : Word} {s t : State} (h : Inv Config.phfd s) (ht : perform w s = .next t) :
    Inv Config.phfd t := by
  rcases perform_cases w s with ⟨i, -, e⟩ | ⟨-, e⟩ <;> rw [e] at ht
  · exact h.exec ht
  · cases ht
    exact h.respond _ _ _ _

/-- Settles O33: by the event the step takes; the input is no part of the invariant, and a reset establishes it anew. -/
theorem stepKeepsStateInvariant : Obligations.StepKeepsStateInvariant := by
  intro s t h ht
  rcases step_cases s with ⟨-, e⟩ | ⟨w, rest, -, e⟩ | ⟨draw, rest, -, e⟩ | ⟨w, draw, rest, -, e⟩ <;> rw [e] at ht
  · cases ht
  · have h' : Inv Config.phfd { s with input := rest } := h
    exact h'.perform ht
  · cases ht
    exact inv_takeReset (by decide) draw _
  · cases ht
    exact inv_takeReset (by decide) draw _

/-! ### The list reading of the buffer (R24) -/

/-- Two states look alike exactly when Q, the flags and the interface agree. -/
theorem observe_eq_iff {c : Config} {s s' : State} :
    observe c s' = observe c s ↔ bufferContent c s' = bufferContent c s ∧ s'.faulted = s.faulted ∧ s'.err = s.err ∧
      s'.input = s.input ∧ s'.out = s.out := by
  simp [observe]

@[simp] theorem observe_q (c : Config) (s : State) : (observe c s).q = bufferContent c s := rfl
@[simp] theorem observe_faulted (c : Config) (s : State) : (observe c s).faulted = s.faulted := rfl
@[simp] theorem observe_err (c : Config) (s : State) : (observe c s).err = s.err := rfl

@[simp] theorem observe_respond (c : Config) (st : BitVec 4) (rn : BitVec 16) (rw : BitVec 32) (f : List Byte)
    (s : State) : observe c (respond st rn rw f s) = (observe c s).respond st rn rw f := rfl

theorem observe_latchFailure (c : Config) (code : BitVec 4) (s : State) :
    observe c (latchFailure code s) = { observe c s with faulted := true, err := code } := rfl

theorem observe_restart (c : Config) (s : State) :
    observe c (restart s) = { observe c s with q := [], faulted := false, err := 0x0 } := rfl

theorem observe_takeReset (c : Config) (draw : List Host.Cell) (s : State) :
    observe c (takeReset c draw s) = { observe c s with q := [], faulted := false, err := 0x0 } := rfl

theorem observe_storeByte {c : Config} {s : State} (hwf : s.buf.wf) (hroom : s.count < c.bufCap) (d : Byte) :
    observe c (storeByte c d s) = { observe c s with q := (observe c s).q ++ [d] } := by
  simp [observe, bufferContent_storeByte hwf hroom]

theorem observe_consume (c : Config) (k : Nat) (s : State) :
    observe c (consume c k s) = { observe c s with q := (observe c s).q.drop k } := by
  simp [observe, bufferContent_consume]

/-- PUSH on Q. -/
theorem observe_push {c : Config} {s : State} (h : Inv c s) (d : Byte) :
    observe c (push c d s) = (observe c s).perform c (.push d) := by
  obtain ⟨-, -, hcount, -, hwf, -⟩ := h
  rcases push_cases c d s with ⟨hf, e⟩ | ⟨hf, hfull, e⟩ | ⟨hf, hroom, e⟩ <;> rw [e, observe_respond]
  · simp [ListState.perform, hf]
  · simp [ListState.perform, hf, hfull]
  · rw [observe_storeByte hwf (Nat.lt_of_le_of_ne hcount hroom)]
    simp [ListState.perform, hf, hroom]

/-- PULL on Q. -/
theorem observe_pull (c : Config) (s : State) : observe c (pull c s) = (observe c s).perform c .pull := by
  rcases pull_cases c s with ⟨hf, e⟩ | ⟨hf, hc, e⟩ | ⟨code, hf, hc, e⟩ | ⟨hf, hc, e⟩ | ⟨n, hf, hc, e⟩ <;>
    rw [e, observe_respond]
  · simp [ListState.perform, hf]
  · simp [ListState.perform, hf, hc]
  · simp [ListState.perform, hf, hc, observe_latchFailure]
  · simp [ListState.perform, hf, hc, observe_latchFailure, observe_consume]
  · simp [ListState.perform, hf, hc, observe_consume]

/-- STATUS on Q: the word is the sum of its fields. -/
theorem observe_status (c : Config) (s : State) : observe c (status c s) = (observe c s).perform c .status := by
  have hready : (observe c s).ready c = ready c s := rfl
  have hword : statusWord c s = BitVec.ofNat 32 (16 * s.err.toNat + 2 * (ready c s).toNat + s.faulted.toNat) := by
    rw [← statusWord_toNat, BitVec.ofNat_toNat, BitVec.setWidth_eq]
  simp [status, ListState.perform, statusCode, hready, hword]

/-- VALIDATE on Q, which it does not read. -/
theorem observe_validate (c : Config) (n : BitVec 16) (h : HeaderWord) (s : State) :
    observe c (validate c n h s) = (observe c s).perform c (.validate n h) := by
  simp only [validate, ListState.perform]
  cases validateStatus c n.toNat h <;> rfl

/-- BUILD on Q, which it does not read. -/
theorem observe_build (c : Config) (n : BitVec 16) (t : BitVec 8) (e : BitVec 2) (s : State) :
    observe c (build c n t e s) = (observe c s).perform c (.build n t e) := by
  simp only [build, ListState.perform]
  cases buildStatus c n.toNat t.toNat <;> rfl

/-- Settles O35: one commuting square per command. -/
theorem ringBufferRefinesListModel : Obligations.RingBufferRefinesListModel := by
  intro i s t h ht
  cases i <;> cases ht
  case nop => rfl
  case push d => exact observe_push h d
  case pull => exact observe_pull _ s
  case validate n w => exact observe_validate _ n w s
  case build n t e => exact observe_build _ n t e s
  case status => exact observe_status _ s
  case clear => rw [observe_respond, observe_restart]; rfl

/-- A command word acts alike on states that look alike. -/
theorem perform_observe_congr {w : Word} {s s' t : State} (hs : Inv Config.phfd s) (hs' : Inv Config.phfd s')
    (hobs : observe Config.phfd s' = observe Config.phfd s) (ht : perform w s = .next t) :
    ∃ t', perform w s' = .next t' ∧ observe Config.phfd t' = observe Config.phfd t := by
  cases hd : decode w with
  | none =>
    simp only [perform, hd, answerIllegal] at ht ⊢
    cases ht
    exact ⟨_, rfl, by rw [observe_respond, observe_respond, hobs]⟩
  | some i =>
    simp only [perform, hd] at ht ⊢
    obtain ⟨t', ht'⟩ := exec_next i s'
    refine ⟨t', ht', ?_⟩
    rw [ringBufferRefinesListModel i s' t' hs' ht', ringBufferRefinesListModel i s t hs ht, hobs]

/-- Settles O36: both states take the same event, since the input is observable; a command acts on what is observable
(O35), and a reset leaves nothing of Q. -/
theorem hiddenStateNeverShows : Obligations.HiddenStateNeverShows := by
  intro s s' t hs hs' hobs ht
  have hin : s'.input = s.input := (observe_eq_iff.mp hobs).2.2.2.1
  have hrest (rest : List HostEvent) :
      observe Config.phfd { s' with input := rest } = observe Config.phfd { s with input := rest } :=
    congrArg (fun l : ListState => { l with input := rest }) hobs
  have hreset (draw : List Host.Cell) (rest : List HostEvent) :
      observe Config.phfd (takeReset Config.phfd draw { s' with input := rest }) =
        observe Config.phfd (takeReset Config.phfd draw { s with input := rest }) := by
    rw [observe_takeReset, observe_takeReset, hrest]
  rcases step_cases s with ⟨-, e⟩ | ⟨w, rest, hi, e⟩ | ⟨draw, rest, hi, e⟩ | ⟨w, draw, rest, hi, e⟩ <;> rw [e] at ht
  · cases ht
  · rw [step_command (hin.trans hi)]
    exact perform_observe_congr (s := { s with input := rest }) hs hs' (hrest rest) ht
  · cases ht
    exact ⟨_, step_reset (hin.trans hi), hreset draw rest⟩
  · cases ht
    exact ⟨_, step_resetDuring (hin.trans hi), hreset draw rest⟩

/-- Settles O26: the storing case of PUSH appends, and both TAKE cases of PULL consume, on Q. -/
theorem logicalContentGrowsAndShrinksAsAList : Obligations.LogicalContentGrowsAndShrinksAsAList := by
  intro c s hwf hf
  refine ⟨fun d hroom => ?_, fun n hn => ?_⟩
  · rcases push_cases c d s with ⟨hf', -⟩ | ⟨-, hfull, -⟩ | ⟨-, -, e⟩
    · simp [hf] at hf'
    · exact absurd hfull hroom.ne
    · rw [e, bufferContent_respond, bufferContent_storeByte hwf hroom]
  · rcases pull_cases c s with ⟨hf', -⟩ | ⟨-, hc, -⟩ | ⟨_, -, hc, -⟩ | ⟨-, hc, e⟩ | ⟨m, -, hc, e⟩
    · simp [hf] at hf'
    · cases hc.symm.trans hn
    · cases hc.symm.trans hn
    · cases hc.symm.trans hn
      rw [e, bufferContent_respond, bufferContent_latchFailure, bufferContent_consume]
    · cases hc.symm.trans hn
      rw [e, bufferContent_respond, bufferContent_consume]

/-! ### Reset (R34, R180) -/

/-- The draw that lists the first `n` bytes of a buffer's contents. -/
def drawOf (contents : Nat → Byte) (n : Nat) : List Host.Cell := (List.range n).map fun a => (a, contents a)

/-- One byte more in the draw is one write more. -/
theorem bufferOf_drawOf_succ {c : Config} (contents : Nat → Byte) {n : Nat} (hn : n < c.bufCap) :
    bufferOf c (drawOf contents (n + 1)) = writeCells (bufferOf c (drawOf contents n)) n (contents n) := by
  simp [bufferOf, drawOf, List.range_succ, Nat.mod_eq_of_lt hn]

/-- A buffer drawn from some contents reads as these contents. -/
theorem readCells_bufferOf_drawOf {c : Config} (contents : Nat → Byte) {n a : Nat} (hn : n ≤ c.bufCap) (ha : a < n) :
    readCells (bufferOf c (drawOf contents n)) a = contents a := by
  induction n with
  | zero => exact absurd ha (Nat.not_lt_zero a)
  | succ n ih =>
    rw [bufferOf_drawOf_succ contents hn, readCells_writeCells (bufferOf_wf c _)]
    rcases Nat.lt_succ_iff_lt_or_eq.mp ha with hlt | rfl
    · rw [if_neg hlt.ne, ih (Nat.le_of_succ_le hn) hlt]
    · rw [if_pos rfl]

/-- After a reset with such a draw, MemRead gives the contents. -/
theorem memRead_takeReset_drawOf {c : Config} (contents : Nat → Byte) {n a : Nat} (hn : n ≤ c.bufCap) (ha : a < n)
    (s : State) : memRead a (takeReset c (drawOf contents n) s) = contents a :=
  readCells_bufferOf_drawOf contents hn ha

/-- Settles O13: the next state is `takeReset`, and the draw that lists all 2048 bytes leaves exactly them. -/
theorem resetStartsAFreshFramer : Obligations.ResetStartsAFreshFramer := by
  intro s rest
  refine ⟨fun draw => ⟨_, step_reset rfl, rfl, rfl, rfl, rfl, rfl, rfl⟩, fun contents => ?_⟩
  refine ⟨drawOf contents 2048, _, step_reset rfl, fun a ha => ?_⟩
  exact memRead_takeReset_drawOf contents (by decide) ha _

/-- Settles O15: the fields of the reset state are literals, and STATUS on it is evaluated. -/
theorem resetStateReadsAllZero : Obligations.ResetStateReadsAllZero :=
  ⟨rfl, rfl, rfl, rfl, rfl, _, _, rfl, rfl, by decide⟩

/-- Settles O34: the reset state holds no cell and no failure. -/
theorem resetStateMeetsInvariant : Obligations.ResetStateMeetsInvariant := by
  unfold Obligations.ResetStateMeetsInvariant
  decide

/-! ### The flags (R25, R26, R30) -/

/-- READY as a proposition (R30). -/
theorem ready_iff (c : Config) (s : State) :
    ready c s = true ↔ s.faulted = false ∧ classify c (bufferContent c s) ≠ .noPacket := by
  simp [ready]

/-- Settles O18: over the cases of PULL; only its NONE case answers 0x1 in a state that is not faulted. -/
theorem readyForecastsPull : Obligations.ReadyForecastsPull := by
  intro s
  refine ⟨pull Config.phfd s, ?_⟩
  rw [ready_iff]
  rcases pull_cases Config.phfd s with ⟨hf, e⟩ | ⟨hf, hc, e⟩ | ⟨code, hf, hc, e⟩ | ⟨hf, hc, e⟩ | ⟨n, hf, hc, e⟩ <;>
    refine ⟨_, rfl, congrArg State.out e, ?_⟩
  · simp [hf]
  · simp [hc]
  · rcases (classify_fail hc).1 with rfl | rfl <;> simp [hf, hc]
  · simp [hf, hc]
  · simp [hf, hc]

/-- What PUSH does to the flags: nothing. -/
theorem push_flags (c : Config) (d : Byte) (s : State) :
    (push c d s).faulted = s.faulted ∧ (push c d s).err = s.err := by
  rcases push_cases c d s with ⟨-, e⟩ | ⟨-, -, e⟩ | ⟨-, -, e⟩ <;> rw [e] <;> exact ⟨rfl, rfl⟩

/-- A PULL while FAULTED only echoes ERR. -/
theorem pull_of_faulted (c : Config) {s : State} (hf : s.faulted = true) : pull c s = respond s.err 0 0 [] s := by
  simp [pull, hf]

/-- What a command does to FAULTED and ERR: a PULL may set them when FAULTED is 0, CLEAR zeroes them, the rest keeps them. -/
theorem exec_flags {i : Instr} {s t : State} (h : exec i s = .next t) :
    (t.faulted = s.faulted ∧ t.err = s.err) ∨ (i = .pull ∧ s.faulted = false) ∨ (i = .clear ∧ t.faulted = false) := by
  rcases exec_cases h with ⟨-, _, _, _, rfl⟩ | ⟨d, -, rfl⟩ | ⟨rfl, rfl⟩ | ⟨rfl, rfl⟩
  · exact .inl ⟨rfl, rfl⟩
  · exact .inl (push_flags _ d s)
  · cases hf : s.faulted with
    | false => exact .inr (.inl ⟨rfl, rfl⟩)
    | true => exact .inl (by rw [pull_of_faulted _ hf]; exact ⟨hf, rfl⟩)
  · exact .inr (.inr ⟨rfl, rfl⟩)

/-- What performing a word does to FAULTED and ERR. -/
theorem perform_flags {w : Word} {s t : State} (h : perform w s = .next t) :
    (t.faulted = s.faulted ∧ t.err = s.err) ∨ (decode w = some .pull ∧ s.faulted = false) ∨
      (decode w = some .clear ∧ t.faulted = false) := by
  rcases perform_cases w s with ⟨i, hd, e⟩ | ⟨-, e⟩ <;> rw [e] at h
  · rw [hd, Option.some_inj, Option.some_inj]
    exact exec_flags h
  · cases h
    exact .inl ⟨rfl, rfl⟩

/-- Settles O32: a command's case is `perform_flags`; after a reset FAULTED is 0. -/
theorem faultedEnteredByPullLeftByClearOrReset : Obligations.FaultedEnteredByPullLeftByClearOrReset := by
  intro s t ht
  rcases step_cases s with ⟨-, e⟩ | ⟨w, rest, hi, e⟩ | ⟨draw, rest, hi, e⟩ | ⟨w, draw, rest, hi, e⟩ <;> rw [e] at ht
  · cases ht
  · have hflags : (t.faulted = s.faulted ∧ t.err = s.err) ∨ (decode w = some .pull ∧ s.faulted = false) ∨
        (decode w = some .clear ∧ t.faulted = false) :=
      perform_flags (s := { s with input := rest }) ht
    rcases hflags with ⟨hf, he⟩ | ⟨hd, hf⟩ | ⟨hd, hf⟩
    · cases hs : s.faulted <;> simp [hf, he, hs]
    · simp [hf, hi, hd]
    · simp [hf, hi, hd]
  · cases ht
    exact ⟨fun _ h1 => absurd h1 Bool.false_ne_true, fun _ _ => .inr (.inl ⟨draw, rest, hi⟩), fun _ h1 => absurd h1 Bool.false_ne_true⟩
  · cases ht
    exact ⟨fun _ h1 => absurd h1 Bool.false_ne_true, fun _ _ => .inr (.inr ⟨w, draw, rest, hi⟩), fun _ h1 => absurd h1 Bool.false_ne_true⟩

/-! ### The stateless commands (R36, R48) -/

theorem sameFramer_refl (s : State) : SameFramer s s := ⟨rfl, rfl, rfl, rfl, rfl⟩

theorem sameFramer_respond (st : BitVec 4) (rn : BitVec 16) (rw : BitVec 32) (f : List Byte) (s : State) :
    SameFramer s (respond st rn rw f s) := ⟨rfl, rfl, rfl, rfl, rfl⟩

/-- The STATUS word depends on the five state elements alone. -/
theorem statusWord_congr (c : Config) {s t : State} (h : SameFramer s t) : statusWord c t = statusWord c s := by
  obtain ⟨hb, hh, hn, hf, he⟩ := h
  simp [statusWord, ready, bufferContent_congr hb hh hn, hf, he]

/-- A stateless command gives one answer in all states with the same five elements. -/
theorem exec_stateless_congr {i : Instr} (hi : isStateless i = true) (s : State) :
    ∃ st rn rw, ∀ t, SameFramer s t → exec i t = .next (respond st rn rw [] t) := by
  cases i with
  | nop => exact ⟨_, _, _, fun t _ => rfl⟩
  | validate n h =>
    simp only [exec, execValidate, validate_eq]
    split <;> exact ⟨_, _, _, fun t _ => rfl⟩
  | build n t e =>
    simp only [exec, execBuild, build_eq]
    split <;> exact ⟨_, _, _, fun t _ => rfl⟩
  | status =>
    refine ⟨0x0, BitVec.ofNat 16 s.count, statusWord Config.phfd s, fun t h => ?_⟩
    have hcount : t.count = s.count := h.2.2.1
    rw [← statusWord_congr _ h, ← hcount]
    rfl
  | push d => cases hi
  | pull => cases hi
  | clear => cases hi

/-- Settles O20: the first answer leaves the five elements alone, so the second is the same. -/
theorem statelessCommandsAreIdempotent : Obligations.StatelessCommandsAreIdempotent := by
  intro i s hi
  obtain ⟨st, rn, rw, hans⟩ := exec_stateless_congr hi s
  have hsame (t : State) : SameFramer t (respond st rn rw [] t) := sameFramer_respond st rn rw [] t
  exact ⟨_, _, ⟨st, rn, rw, []⟩, hans s (sameFramer_refl s), hans _ (hsame s), hsame s, hsame _, rfl, rfl, by simp⟩

/-! ### The platform (R35) -/

/-- Settles O42: the platform replaces entry k by its own next state and touches no other. -/
theorem instancesAreIndependent : Obligations.InstancesAreIndependent := by
  intro p k s t hk ht
  have hlt : k < p.length := (List.getElem?_eq_some_iff.mp hk).1
  refine ⟨p.set k t, by simp only [platformStep, hk, ht], List.length_set, ?_, fun j hj => ?_⟩
  · exact List.getElem?_set_self hlt
  · exact List.getElem?_set_ne (Ne.symm hj)

end Sys2Proof.Machine
end

section
/-! PROOFS. The family of 20_memory.md: a step performs the decoded command, offered words run in issue order (R50, R61), and the
bytes that PULL delivers are the accepted ones in push order (R51). -/

namespace Sys2Proof.Machine

/-! ### The delivered bytes (R51) -/

/-- The frames of responses, concatenated: a response without a frame adds nothing. -/
theorem deliveredFrames_flatten_cons (r : Response) (rs : List Response) :
    (deliveredFrames (r :: rs)).flatten = r.frame ++ (deliveredFrames rs).flatten := by
  simp only [deliveredFrames, List.flatten_filter_ne_nil, List.map_cons, List.flatten_cons]

/-- The accepted bytes of a command and more: those of the command, then those of the rest. -/
theorem acceptedBytes_cons (i : Instr) (is : List Instr) (r : Response) (rs : List Response) :
    acceptedBytes (i :: is) (r :: rs) = acceptedBytes [i] [r] ++ acceptedBytes is rs := by
  cases i with
  | push d => by_cases h : r.st = statusCode .ok <;> simp [acceptedBytes, h]
  | nop | pull | validate | build | status | clear => rfl

/-- A stateless command accepts no byte, whatever it is answered. -/
theorem acceptedBytes_stateless {i : Instr} (hi : isStateless i = true) (r : Response) : acceptedBytes [i] [r] = [] := by
  cases i with
  | push | pull | clear => cases hi
  | nop | validate | build | status => rfl

/-- What one command does to the bytes between PUSH and PULL: while the framer is not FAULTED, the frame and what is left in Q
are Q and the byte accepted. -/
def ConservesBytes (i : Instr) (s t : State) (r : Response) : Prop :=
  s.faulted = false ∧ t.faulted = false ∧
    r.frame ++ bufferContent Config.phfd t = bufferContent Config.phfd s ++ acceptedBytes [i] [r]

/-- The framer is FAULTED after the command, which delivered nothing. -/
def EndsFaulted (t : State) (r : Response) : Prop := t.faulted = true ∧ r.frame = []

/-- PUSH conserves the bytes: only the storing case accepts the byte, and it appends it to Q (R111). -/
theorem push_conserves {d : Byte} {s : State} {r : Response} (hs : Inv Config.phfd s)
    (hr : (push Config.phfd d s).out = s.out ++ [r]) :
    EndsFaulted (push Config.phfd d s) r ∨ ConservesBytes (.push d) s (push Config.phfd d s) r := by
  obtain ⟨-, -, hcount, -, hwf, -⟩ := hs
  rcases push_cases Config.phfd d s with ⟨hf, e⟩ | ⟨hf, -, e⟩ | ⟨hf, hroom, e⟩ <;> rw [e] at hr ⊢ <;>
    obtain rfl := List.singleton_inj.mp (List.append_cancel_left hr)
  · exact .inl ⟨hf, rfl⟩
  · exact .inr ⟨hf, hf, by simp [acceptedBytes, statusCode]⟩
  · refine .inr ⟨hf, hf, ?_⟩
    rw [bufferContent_respond, bufferContent_storeByte hwf (Nat.lt_of_le_of_ne hcount hroom)]
    simp [acceptedBytes, statusCode]

/-- PULL conserves the bytes: a delivered frame is the front of Q and is dropped from it; every failure latches FAULTED (R112). -/
theorem pull_conserves {s : State} {r : Response} (hr : (pull Config.phfd s).out = s.out ++ [r]) :
    EndsFaulted (pull Config.phfd s) r ∨ ConservesBytes .pull s (pull Config.phfd s) r := by
  rcases pull_cases Config.phfd s with ⟨hf, e⟩ | ⟨hf, -, e⟩ | ⟨code, -, -, e⟩ | ⟨-, -, e⟩ | ⟨n, hf, -, e⟩ <;>
    rw [e] at hr ⊢ <;> obtain rfl := List.singleton_inj.mp (List.append_cancel_left hr)
  · exact .inl ⟨hf, rfl⟩
  · exact .inr ⟨hf, hf, by simp [acceptedBytes]⟩
  · exact .inl ⟨rfl, rfl⟩
  · exact .inl ⟨rfl, rfl⟩
  · refine .inr ⟨hf, hf, ?_⟩
    rw [bufferContent_respond, bufferContent_consume, List.take_append_drop]
    simp [acceptedBytes]

/-- Every command but CLEAR conserves the bytes or leaves the framer FAULTED with nothing delivered. -/
theorem exec_conserves {i : Instr} {s t : State} {r : Response} (hs : Inv Config.phfd s) (hi : i ≠ .clear)
    (ht : exec i s = .next t) (hr : t.out = s.out ++ [r]) : EndsFaulted t r ∨ ConservesBytes i s t r := by
  rcases exec_cases ht with ⟨hst, st, rn, rw, rfl⟩ | ⟨d, rfl, rfl⟩ | ⟨rfl, rfl⟩ | ⟨rfl, -⟩
  · obtain rfl := List.singleton_inj.mp (List.append_cancel_left hr)
    cases hf : s.faulted with
    | true => exact .inl ⟨hf, rfl⟩
    | false => exact .inr ⟨hf, hf, by simp [acceptedBytes_stateless hst]⟩
  · exact push_conserves hs hr
  · exact pull_conserves hr
  · exact absurd rfl hi

/-- A run of a command and more, with its responses: the command's response, then those of the rest. -/
theorem runCommands_cons_out {i : Instr} {is : List Instr} {s u : State} {rs : List Response}
    (h : runCommands (i :: is) s = .next u) (hu : u.out = s.out ++ rs) :
    ∃ t r rs', exec i s = .next t ∧ t.out = s.out ++ [r] ∧ runCommands is t = .next u ∧ u.out = t.out ++ rs' ∧
      rs = r :: rs' := by
  obtain ⟨t, ht, hrun⟩ := runCommands_cons h
  obtain ⟨⟨r, hr⟩, -⟩ := exec_interface ht
  obtain ⟨rs', hrs', -⟩ := runCommands_out hrun
  refine ⟨t, r, rs', ht, hr, hrun, hrs', List.append_cancel_left (as := s.out) ?_⟩
  rw [← hu, hrs', hr, List.append_assoc, List.singleton_append]

/-- A FAULTED framer delivers nothing until a CLEAR. -/
theorem delivered_of_faulted {cmds : List Instr} {s t : State} {rs : List Response} (hs : Inv Config.phfd s)
    (hf : s.faulted = true) (hc : ∀ i ∈ cmds, i ≠ .clear) (hrun : runCommands cmds s = .next t)
    (hout : t.out = s.out ++ rs) : (deliveredFrames rs).flatten = [] := by
  induction cmds generalizing s rs with
  | nil =>
    cases hrun
    rw [List.self_eq_append_right.mp hout]
    rfl
  | cons i is ih =>
    obtain ⟨hi, his⟩ := List.forall_mem_cons.mp hc
    obtain ⟨u, r, rs', hu, hr, hrun', hout', rfl⟩ := runCommands_cons_out hrun hout
    rw [deliveredFrames_flatten_cons]
    rcases exec_conserves hs hi hu hr with ⟨hfu, hframe⟩ | ⟨hf', -⟩
    · rw [hframe, List.nil_append, ih (hs.exec hu) hfu his hrun' hout']
    · exact absurd (hf.symm.trans hf') (by decide)

/-- From any content of Q, what a run delivers is a prefix of Q followed by the bytes accepted. -/
theorem delivered_prefix {cmds : List Instr} {s t : State} {rs : List Response} (hs : Inv Config.phfd s)
    (hc : ∀ i ∈ cmds, i ≠ .clear) (hrun : runCommands cmds s = .next t) (hout : t.out = s.out ++ rs) :
    (deliveredFrames rs).flatten <+: bufferContent Config.phfd s ++ acceptedBytes cmds rs := by
  induction cmds generalizing s rs with
  | nil =>
    cases hrun
    rw [List.self_eq_append_right.mp hout]
    exact List.nil_prefix
  | cons i is ih =>
    obtain ⟨hi, his⟩ := List.forall_mem_cons.mp hc
    obtain ⟨u, r, rs', hu, hr, hrun', hout', rfl⟩ := runCommands_cons_out hrun hout
    rw [deliveredFrames_flatten_cons, acceptedBytes_cons]
    rcases exec_conserves hs hi hu hr with ⟨hfu, hframe⟩ | ⟨-, -, hbytes⟩
    · rw [hframe, delivered_of_faulted (hs.exec hu) hfu his hrun' hout']
      exact List.nil_prefix
    · rw [← List.append_assoc, ← hbytes, List.append_assoc]
      exact (List.prefix_append_right_inj _).mpr (ih (hs.exec hu) his hrun' hout')

/-- Settles O40: `delivered_prefix`, from an empty Q. -/
theorem deliveredBytesArePrefixOfAcceptedBytes : Obligations.DeliveredBytesArePrefixOfAcceptedBytes := by
  intro cmds s t rs hs _ hempty hc hrun hout
  have hq : bufferContent Config.phfd s = [] := List.length_eq_zero_iff.mp (by rw [bufferContent_length, hempty])
  simpa [hq] using delivered_prefix hs hc hrun hout

/-! ### Offered words (R50, R61) -/

/-- The W field of a PUSH word gives D back. -/
theorem extract_pushField (d : BitVec 8) : (0#24 ++ d : BitVec 32).extractLsb' 0 8 = d := by
  apply BitVec.eq_of_toNat_eq
  rw [BitVec.extractLsb'_toNat, pushField_toNat, Nat.shiftRight_zero, Nat.mod_eq_of_lt d.isLt]

/-- The W field of a BUILD word gives T and E back. -/
theorem extract_buildField (t : BitVec 8) (e : BitVec 2) :
    (0#22 ++ e ++ t : BitVec 32).extractLsb' 0 8 = t ∧ (0#22 ++ e ++ t : BitVec 32).extractLsb' 8 2 = e := by
  have := t.isLt
  have := e.isLt
  constructor <;> apply BitVec.eq_of_toNat_eq <;>
    rw [BitVec.extractLsb'_toNat, buildField_toNat, Nat.shiftRight_eq_div_pow] <;> omega

/-- The word of an instruction decodes to it (R61, R62, R64). -/
theorem decode_encode (i : Instr) : decode (encode i) = some i := by
  cases i with
  | nop | pull | status | clear => decide
  | push d =>
    rw [encode, packWord_eq, decode_fieldsWord, pushField_toNat, extract_pushField]
    simp [d.isLt]
  | validate n h =>
    rw [encode, packWord_eq, decode_fieldsWord]
    simp
  | build n t e =>
    have hw : e.toNat * 256 + t.toNat < 1024 := by have := t.isLt; have := e.isLt; omega
    obtain ⟨ht, he⟩ := extract_buildField t e
    rw [encode, packWord_eq, decode_fieldsWord, buildField_toNat, ht, he]
    simp [hw]

/-- Settles O1: the step performs the word, and performing a word that decodes is `exec`. -/
theorem stepRunsDecodedInstruction : Obligations.StepRunsDecodedInstruction := by
  intro s w rest i hin hd
  rw [step_command hin, perform, hd]

/-- PUSH neither reads nor changes the events still to come. -/
theorem push_withInput (c : Config) (d : Byte) (s : State) (inp : List HostEvent) :
    push c d { s with input := inp } = { push c d s with input := inp } := by
  unfold push
  split
  · rfl
  · split <;> rfl

/-- Delivering a frame (the TAKE case of PULL) neither reads nor changes them. -/
theorem deliver_withInput (c : Config) (n : Nat) (s : State) (inp : List HostEvent) :
    deliver c n { s with input := inp } = { deliver c n s with input := inp } := by
  unfold deliver
  split <;> rfl

/-- PULL neither reads nor changes them: its decision reads Q alone. -/
theorem pull_withInput (c : Config) (s : State) (inp : List HostEvent) :
    pull c { s with input := inp } = { pull c s with input := inp } := by
  have hq : bufferContent c { s with input := inp } = bufferContent c s := rfl
  unfold pull
  rw [hq]
  split
  · rfl
  · cases classify c (bufferContent c s) with
    | noPacket => rfl
    | fail code => rfl
    | take n => exact deliver_withInput c n s inp

/-- No command reads the events still to come: with others offered it does the same and leaves them offered. -/
theorem exec_withInput {i : Instr} {s t : State} (h : exec i s = .next t) (inp : List HostEvent) :
    exec i { s with input := inp } = .next { t with input := inp } := by
  rcases exec_cases h with ⟨hi, -⟩ | ⟨d, rfl, rfl⟩ | ⟨rfl, rfl⟩ | ⟨rfl, rfl⟩
  · obtain ⟨st, rn, rw, hans⟩ := exec_stateless_congr hi s
    cases (hans s (sameFramer_refl s)).symm.trans h
    exact hans { s with input := inp } (sameFramer_refl s)
  · exact congrArg Host.Outcome.next (push_withInput _ d s inp)
  · exact congrArg Host.Outcome.next (pull_withInput _ s inp)
  · rfl

/-- A command's word offered in front of any other events: the step does what the command does and leaves the others. -/
theorem step_offeredWord {i : Instr} {s t : State} (h : exec i s = .next t) (inp : List HostEvent) :
    step { s with input := .command (encode i) :: inp } = .next { t with input := inp } :=
  (stepRunsDecodedInstruction _ _ inp i rfl (decode_encode i)).trans (exec_withInput h inp)

/-- A run of the machine whose first step succeeds goes on from the next state. -/
theorem run_succ_of_step {s t : State} (h : step s = .next t) (k : Nat) :
    Host.Core.run Sys2Proof.core (k + 1) s = Host.Core.run Sys2Proof.core k t := by
  have hcore : Host.Core.step Sys2Proof.core s = .next t := h
  simp only [Host.Core.run, hcore]

/-- The machine on the words of commands, whatever is offered behind them, ends as the commands do. -/
theorem run_offeredWords {cmds : List Instr} {s t : State} (h : runCommands cmds s = .next t) :
    Host.Core.run Sys2Proof.core cmds.length
      { s with input := cmds.map (fun i => .command (encode i)) ++ s.input } = .next t := by
  induction cmds generalizing s with
  | nil => exact h
  | cons i is ih =>
    obtain ⟨u, hu, hrun⟩ := runCommands_cons h
    have hin : u.input = s.input := (exec_interface hu).2
    rw [← hin]
    exact (run_succ_of_step (step_offeredWord hu _) is.length).trans (ih hrun)

/-- Settles O5: `run_offeredWords` in the state with `rest` as its input. -/
theorem offeredWordsRunAsCommands : Obligations.OfferedWordsRunAsCommands := by
  intro cmds s t rest h
  exact run_offeredWords h

end Sys2Proof.Machine
end

section
/-! PROOFS. The family of 30_encoding.md: the opcode map in both directions (R61 to R64), the assembler (R73, R74), responses
(R65, R66) and the host's drain (R74, R166). -/

namespace Sys2Proof

open Sys2Proof.Machine

/-! ### Decode and encode are inverse (R61 to R64) -/

/-- A PUSH word's W is the operand D behind zeros. -/
theorem pushField_extract {w : BitVec 32} (h : w.toNat < 256) : 0#24 ++ w.extractLsb' 0 8 = w := by
  apply BitVec.eq_of_toNat_eq
  rw [pushField_toNat, BitVec.extractLsb'_toNat, Nat.shiftRight_zero, Nat.mod_eq_of_lt h]

/-- A BUILD word's W is the operands E and T behind zeros. -/
theorem buildField_extract {w : BitVec 32} (h : w.toNat < 1024) :
    0#22 ++ w.extractLsb' 8 2 ++ w.extractLsb' 0 8 = w := by
  apply BitVec.eq_of_toNat_eq
  rw [buildField_toNat, BitVec.extractLsb'_toNat, BitVec.extractLsb'_toNat, Nat.shiftRight_eq_div_pow, Nat.shiftRight_zero]
  omega

/-- A legal word is the word of what it decodes to: each row of `decode_fieldsWord` fixes the bits that `encode` writes. -/
theorem encode_of_decode {w : Word} {i : Instr} (h : decode w = some i) : encode i = w := by
  obtain ⟨o, r, n, v, rfl⟩ := exists_fieldsWord w
  rw [decode_fieldsWord] at h
  split_ifs at h with hnop hpush hpull hvalidate hbuild hstatus hclear <;> cases h
  · obtain ⟨rfl, rfl, rfl, rfl⟩ := hnop
    rfl
  · obtain ⟨rfl, rfl, rfl, hv⟩ := hpush
    rw [encode, packWord_eq, pushField_extract hv]
  · obtain ⟨rfl, rfl, rfl, rfl⟩ := hpull
    rfl
  · obtain ⟨rfl, rfl⟩ := hvalidate
    rfl
  · obtain ⟨rfl, rfl, hv⟩ := hbuild
    rw [encode, packWord_eq, buildField_extract hv]
  · obtain ⟨rfl, rfl, rfl, rfl⟩ := hstatus
    rfl
  · obtain ⟨rfl, rfl, rfl, rfl⟩ := hclear
    rfl

/-- Settles O8: `decode_encode` and its converse. -/
theorem decodeOfEncodeIsTheInstruction : Obligations.DecodeOfEncodeIsTheInstruction :=
  ⟨fun i _ => decode_encode i, fun _ _ => encode_of_decode⟩

/-- A word decodes to an instruction exactly when it is that instruction's word. -/
theorem decode_eq_some_iff {w : Word} {i : Instr} : decode w = some i ↔ w = encode i :=
  ⟨fun h => (encode_of_decode h).symm, fun h => h ▸ decode_encode i⟩

/-! ### Command words as numbers (R62, R64) -/

@[simp] theorem encode_nop_toNat : (encode .nop).toNat = 0 := by decide
@[simp] theorem encode_pull_toNat : (encode .pull).toNat = 2 * 2 ^ 60 := by decide
@[simp] theorem encode_status_toNat : (encode .status).toNat = 5 * 2 ^ 60 := by decide
@[simp] theorem encode_clear_toNat : (encode .clear).toNat = 6 * 2 ^ 60 := by decide

@[simp] theorem encode_push_toNat (d : BitVec 8) : (encode (.push d)).toNat = 1 * 2 ^ 60 + d.toNat := by
  rw [encode, packWord_eq, fieldsWord_toNat, pushField_toNat]
  simp

@[simp] theorem encode_validate_toNat (n : BitVec 16) (h : BitVec 32) :
    (encode (.validate n h)).toNat = 3 * 2 ^ 60 + n.toNat * 2 ^ 32 + h.toNat := by
  rw [encode, packWord_eq, fieldsWord_toNat]
  simp

@[simp] theorem encode_build_toNat (n : BitVec 16) (t : BitVec 8) (e : BitVec 2) :
    (encode (.build n t e)).toNat = 4 * 2 ^ 60 + n.toNat * 2 ^ 32 + e.toNat * 2 ^ 8 + t.toNat := by
  rw [encode, packWord_eq, fieldsWord_toNat, buildField_toNat]
  simp [Nat.add_assoc]

/-- A word decodes to an instruction exactly when it has the number of that instruction's word. -/
theorem decode_eq_some_iff_toNat {w : Word} {i : Instr} : decode w = some i ↔ w.toNat = (encode i).toNat := by
  rw [decode_eq_some_iff, BitVec.toNat_inj]

/-- Settles O6: the number of each command's word. -/
theorem decodeReadsExactlyTheOpcodeMap : Obligations.DecodeReadsExactlyTheOpcodeMap := by
  intro w
  refine ⟨?_, fun d => ?_, ?_, fun n h => ?_, fun n t e => ?_, ?_, ?_⟩ <;> rw [decode_eq_some_iff_toNat]
  · rw [encode_nop_toNat]
  · rw [encode_push_toNat]
  · rw [encode_pull_toNat]
  · rw [encode_validate_toNat]
  · rw [encode_build_toNat]
  · rw [encode_status_toNat]
  · rw [encode_clear_toNat]

/-! ### The one row a word selects (R63), and the fixed-zero bits (R61) -/

/-- A row selects a word when the masked word is its match. -/
theorem selects_iff {r : OpcodeRow} {w : Word} : r.selects w = true ↔ w &&& r.mask = r.value := by
  simp [OpcodeRow.selects]

/-- The word of an instruction is selected by the instruction's row. -/
theorem row_selects_encode (i : Instr) : i.row.selects (encode i) = true := by
  have h : Laws.RowOfWord.Statement i := by
    cases i with
    | nop => exact Laws.RowOfWord.nop
    | push d => exact Laws.RowOfWord.push d
    | pull => exact Laws.RowOfWord.pull
    | validate n h => exact Laws.RowOfWord.validate n h
    | build n t e => exact Laws.RowOfWord.build n t e
    | status => exact Laws.RowOfWord.status
    | clear => exact Laws.RowOfWord.clear
  exact h.2

/-- A word that a row selects decodes to an instruction of that row. -/
theorem decode_of_selects {r : OpcodeRow} (hr : r ∈ opcodeRows) {w : Word} (h : r.selects w = true) :
    ∃ i, decode w = some i ∧ i.row = r := by
  obtain ⟨o, rsv, n, v, rfl⟩ := exists_fieldsWord w
  simp only [opcodeRows, List.mem_cons, List.not_mem_nil, or_false] at hr
  rw [decode_fieldsWord]
  rcases hr with rfl | rfl | rfl | rfl | rfl | rfl | rfl
  · obtain ⟨rfl, rfl, rfl, rfl⟩ := (rowNop_selects _ _ _ _).mp h
    exact ⟨.nop, by simp, rfl⟩
  · obtain ⟨rfl, rfl, rfl, hv⟩ := (rowPush_selects _ _ _ _).mp h
    exact ⟨.push (v.extractLsb' 0 8), by simp [hv], rfl⟩
  · obtain ⟨rfl, rfl, rfl, rfl⟩ := (rowPull_selects _ _ _ _).mp h
    exact ⟨.pull, by simp, rfl⟩
  · obtain ⟨rfl, rfl⟩ := (rowValidate_selects _ _ _ _).mp h
    exact ⟨.validate n v, by simp, rfl⟩
  · obtain ⟨rfl, rfl, hv⟩ := (rowBuild_selects _ _ _ _).mp h
    exact ⟨.build n (v.extractLsb' 0 8) (v.extractLsb' 8 2), by simp [hv], rfl⟩
  · obtain ⟨rfl, rfl, rfl, rfl⟩ := (rowStatus_selects _ _ _ _).mp h
    exact ⟨.status, by simp, rfl⟩
  · obtain ⟨rfl, rfl, rfl, rfl⟩ := (rowClear_selects _ _ _ _).mp h
    exact ⟨.clear, by simp, rfl⟩

section FixedBits

variable (o : BitVec 4) (r : BitVec 12) (n : BitVec 16) (w : BitVec 32)

/-- The bits of a word from bit `k` on, `len` of them, are zero, as a fact about its number. -/
theorem extract_fieldsWord_eq_zero (k len : Nat) : (fieldsWord o r n w).extractLsb' k len = 0#len ↔
    (o.toNat * 2 ^ 60 + r.toNat * 2 ^ 48 + n.toNat * 2 ^ 32 + w.toNat) / 2 ^ k % 2 ^ len = 0 := by
  rw [← BitVec.toNat_inj, BitVec.extractLsb'_toNat, fieldsWord_toNat, Nat.shiftRight_eq_div_pow]
  simp

@[simp] theorem opBits_fieldsWord : (fieldsWord o r n w).extractLsb' 60 4 = o := by
  apply BitVec.eq_of_toNat_eq
  have := o.isLt; have := r.isLt; have := n.isLt; have := w.isLt
  rw [BitVec.extractLsb'_toNat, fieldsWord_toNat, Nat.shiftRight_eq_div_pow]
  omega

theorem fixedBitsZero_z : fixedBitsZero .z (fieldsWord o r n w) = true ↔ r = 0 ∧ n = 0 ∧ w = 0 := by
  have := o.isLt; have := r.isLt; have := n.isLt; have := w.isLt
  simp only [fixedBitsZero, beq_iff_eq, extract_fieldsWord_eq_zero]
  bv_omega

theorem fixedBitsZero_p : fixedBitsZero .p (fieldsWord o r n w) = true ↔ r = 0 ∧ n = 0 ∧ w.toNat < 256 := by
  have := o.isLt; have := r.isLt; have := n.isLt; have := w.isLt
  simp only [fixedBitsZero, beq_iff_eq, extract_fieldsWord_eq_zero]
  bv_omega

theorem fixedBitsZero_v : fixedBitsZero .v (fieldsWord o r n w) = true ↔ r = 0 := by
  have := o.isLt; have := r.isLt; have := n.isLt; have := w.isLt
  simp only [fixedBitsZero, beq_iff_eq, extract_fieldsWord_eq_zero]
  bv_omega

theorem fixedBitsZero_b : fixedBitsZero .b (fieldsWord o r n w) = true ↔ r = 0 ∧ w.toNat < 1024 := by
  have := o.isLt; have := r.isLt; have := n.isLt; have := w.isLt
  simp only [fixedBitsZero, Bool.and_eq_true, beq_iff_eq, extract_fieldsWord_eq_zero]
  bv_omega

/-- The formats of the opcode map (R62): each OP with its format, or no format. -/
theorem formatOfOp_cases (op : BitVec 4) :
    ((op = 0 ∨ op = 2 ∨ op = 5 ∨ op = 6) ∧ formatOfOp op = some .z) ∨ (op = 1 ∧ formatOfOp op = some .p) ∨
    (op = 3 ∧ formatOfOp op = some .v) ∨ (op = 4 ∧ formatOfOp op = some .b) ∨
    ((op ≠ 0#4 ∧ op ≠ 1#4 ∧ op ≠ 2#4 ∧ op ≠ 3#4 ∧ op ≠ 4#4 ∧ op ≠ 5#4 ∧ op ≠ 6#4) ∧ formatOfOp op = none) := by
  revert op
  decide

/-- The check of the fixed-zero bits accepts a word exactly when it decodes, by the format of its OP. -/
theorem wellFormedWord_fieldsWord :
    wellFormedWord (fieldsWord o r n w) = true ↔ decode (fieldsWord o r n w) ≠ none := by
  rw [wellFormedWord, opBits_fieldsWord, decode_fieldsWord]
  rcases formatOfOp_cases o with ⟨h, hf⟩ | ⟨rfl, hf⟩ | ⟨rfl, hf⟩ | ⟨rfl, hf⟩ | ⟨⟨h0, h1, h2, h3, h4, h5, h6⟩, hf⟩ <;>
    simp only [hf]
  · rw [fixedBitsZero_z]
    rcases h with rfl | rfl | rfl | rfl <;> simp
  · rw [fixedBitsZero_p]
    simp
  · rw [fixedBitsZero_v]
    simp
  · rw [fixedBitsZero_b]
    simp
  · simp [h0, h1, h2, h3, h4, h5, h6]

end FixedBits

/-- Settles O7: a decoded word is its instruction's word, which its row selects; a selected word decodes into that row, and a
word decodes to one instruction only. -/
theorem decodeSelectsTheOneMatchingRow : Obligations.DecodeSelectsTheOneMatchingRow := by
  intro w
  have hrow : ∀ r ∈ opcodeRows, w &&& r.mask = r.value → ∃ i, decode w = some i ∧ i.row = r :=
    fun r hr h => decode_of_selects hr (selects_iff.mpr h)
  refine ⟨fun i h => ?_, hrow, fun r hr r' hr' h h' => ?_, ?_⟩
  · rw [← encode_of_decode h]
    exact selects_iff.mp (row_selects_encode i)
  · obtain ⟨i, hi, rfl⟩ := hrow r hr h
    obtain ⟨j, hj, rfl⟩ := hrow r' hr' h'
    cases hi.symm.trans hj
    rfl
  · obtain ⟨o, r, n, v, rfl⟩ := exists_fieldsWord w
    rw [← not_iff_not, Bool.not_eq_false, wellFormedWord_fieldsWord]

/-- Settles O9: eleven literal words, evaluated. -/
theorem specWordsDecodeAsListed : Obligations.SpecWordsDecodeAsListed := by
  unfold Obligations.SpecWordsDecodeAsListed
  decide

/-! ### What each source line assembles to (R73, R74) -/

/-- A line assembles to the words of its commands when its operands are in range. -/
theorem assemble_of_inRange {l : AsmLine} {ws : List Word} {p : Prop} [Decidable p] (hp : l.inRange = true ↔ p)
    (hw : p → l.commands.map encode = ws) : assemble l = if p then some ws else none := by
  unfold assemble
  by_cases h : p
  · rw [if_pos h, if_pos (hp.mpr h), hw h]
  · rw [if_neg h, if_neg (mt hp.mp h)]

theorem assemble_push (d : Nat) :
    assemble (.push d) = if d < 256 then some [BitVec.ofNat 64 (2 ^ 60 + d)] else none := by
  refine assemble_of_inRange (by simp [AsmLine.inRange]) fun h => ?_
  rw [AsmLine.commands, List.map_singleton, encode_push_ofNat h]

theorem assemble_validate (h n : Nat) : assemble (.validate h n) =
    if h < 2 ^ 32 ∧ n < 65536 then some [BitVec.ofNat 64 (3 * 2 ^ 60 + n * 2 ^ 32 + h)] else none := by
  refine assemble_of_inRange (by simp [AsmLine.inRange]) fun ⟨hh, hn⟩ => ?_
  rw [AsmLine.commands, List.map_singleton, List.singleton_inj, ← BitVec.toNat_inj, encode_validate_toNat]
  simp only [BitVec.toNat_ofNat]
  omega

theorem assemble_build (t e n : Nat) : assemble (.build t e n) = if t < 256 ∧ e < 4 ∧ n < 65536
    then some [BitVec.ofNat 64 (4 * 2 ^ 60 + n * 2 ^ 32 + e * 2 ^ 8 + t)] else none := by
  refine assemble_of_inRange (by simp [AsmLine.inRange, and_assoc]) fun ⟨ht, he, hn⟩ => ?_
  rw [AsmLine.commands, List.map_singleton, List.singleton_inj, ← BitVec.toNat_inj, encode_build_toNat]
  simp only [BitVec.toNat_ofNat]
  omega

theorem assemble_pushb (bs : List Nat) : assemble (.pushb bs) =
    if ∀ b ∈ bs, b < 256 then some (bs.map fun b => BitVec.ofNat 64 (2 ^ 60 + b)) else none :=
  assemble_of_inRange (by simp [AsmLine.inRange]) encode_pushBytes_ofNat

theorem assemble_send (h : Nat) (ps : List Nat) : assemble (.send h ps) = if h < 2 ^ 32 ∧ ∀ b ∈ ps, b < 256
    then some (([h / 2 ^ 24, h / 2 ^ 16 % 256, h / 2 ^ 8 % 256, h % 256] ++ ps).map fun b => BitVec.ofNat 64 (2 ^ 60 + b))
    else none := by
  refine assemble_of_inRange (by simp [AsmLine.inRange]) fun ⟨hh, hps⟩ => ?_
  rw [AsmLine.commands, sendPacket, headerBytes_ofNat h hh, ← List.map_append, encode_pushBytes_ofNat]
  intro b hb
  rcases List.mem_append.mp hb with hb | hb
  · simp only [List.mem_cons, List.not_mem_nil, or_false] at hb
    omega
  · exact hps b hb

/-- A line of text that gives words is a source line that assembles to them. -/
theorem exists_assemble_of_assembleText {line : List Char} {ws : List Word} (h : assembleText line = .words ws) :
    ∃ l, assemble l = some ws := by
  unfold assembleText at h
  split at h
  · cases h
  · split at h
    · cases h
    · next l _ =>
      split at h
      · next ha => cases h; exact ⟨l, ha⟩
      · cases h

/-- Whatever assembles is words of commands. -/
theorem decode_of_assemble {l : AsmLine} {ws : List Word} (h : assemble l = some ws) {w : Word} (hw : w ∈ ws) :
    ∃ i, decode w = some i := by
  unfold assemble at h
  split at h <;> cases h
  obtain ⟨i, -, rfl⟩ := List.mem_map.mp hw
  exact ⟨i, decode_encode i⟩

/-- Settles O10: words of text are words of commands, and each line form has its lemma above. -/
theorem assemblerNeverMakesAnIllegalWord : Obligations.AssemblerNeverMakesAnIllegalWord := by
  refine ⟨fun line ws h w hw => ?_, by decide, assemble_push, by decide, assemble_validate, assemble_build, by decide,
    by decide, assemble_pushb, assemble_send⟩
  obtain ⟨l, hl⟩ := exists_assemble_of_assembleText h
  exact decode_of_assemble hl hw

/-! ### How a line of text is read (R73, R74, log 14) -/

/-- The character of a decimal digit reads as that digit, is no underscore and no `x`. -/
theorem decimalChar_spec : ∀ d < 10, digitValue 10 (Char.ofNat (48 + d)) = some d ∧ Char.ofNat (48 + d) ≠ '_' ∧
    Char.ofNat (48 + d) ≠ 'x' := by decide

/-- The character of a hex digit, its letters from `A` (55 + 10) or from `a` (87 + 10), reads as that digit and is no underscore. -/
theorem hexChar_spec : ∀ letter ∈ [55, 87], ∀ d < 16,
    digitValue 16 (Char.ofNat (if d < 10 then 48 + d else letter + d)) = some d ∧
      Char.ofNat (if d < 10 then 48 + d else letter + d) ≠ '_' := by decide

theorem number_decimalDigits {ds : List Nat} (hne : ds ≠ []) (h : ∀ d ∈ ds, d < 10) :
    number (ds.map fun d => Char.ofNat (48 + d)) = some (ds.foldl (fun a d => 10 * a + d) 0) := by
  obtain ⟨d, ds, rfl⟩ := List.exists_cons_of_ne_nil hne
  have hchar := fun x hx => decimalChar_spec x (h x hx)
  obtain ⟨hd, hds⟩ := List.forall_mem_cons.mp hchar
  have hx : (ds.map fun d => Char.ofNat (48 + d)).head? ≠ some 'x' := by
    cases ds with
    | nil => simp
    | cons y ys => simpa using (hds y (by simp)).2.2
  rw [List.map_cons, number_decimal hd.1 hx, digits_map (fun x hx => (hds x hx).1) (fun x hx => (hds x hx).2.1)]
  simp

theorem number_hexDigits {ds : List Nat} {letter : Nat} (hne : ds ≠ []) (h : ∀ d ∈ ds, d < 16)
    (hl : letter = 55 ∨ letter = 87) :
    number (['0', 'x'] ++ ds.map fun d => Char.ofNat (if d < 10 then 48 + d else letter + d)) =
      some (ds.foldl (fun a d => 16 * a + d) 0) := by
  obtain ⟨d, ds, rfl⟩ := List.exists_cons_of_ne_nil hne
  have hchar := fun x hx => hexChar_spec letter (by simpa using hl) x (h x hx)
  obtain ⟨hd, hds⟩ := List.forall_mem_cons.mp hchar
  rw [List.map_cons, List.cons_append, List.cons_append, List.nil_append, number_hex hd.1,
    digits_map (fun x hx => (hds x hx).1) (fun x hx => (hds x hx).2)]
  simp

section Text

/-- A word the tokens are cut into: not empty, with no separator in it. -/
abbrev IsWord (w : List Char) : Prop := Plain w ∧ w ≠ []

/-- A spelled-out word, checked character by character. -/
theorem isWord_of_check {w : List Char}
    (h : (!w.isEmpty && w.all fun ch => !([' ', '\t', ',', '=', ';'].contains ch)) = true) : IsWord w := by
  unfold IsWord Plain
  simpa [and_comm] using h

variable {w : List Char} (hw : IsWord w) (cs : List Char)
include hw

theorem tokens_word_comment : tokens [] (w ++ ';' :: cs) = [.word w] := tokens_word hw.1 hw.2 cs

theorem tokens_word_blank : tokens [] (w ++ ' ' :: cs) = .word w :: tokens [] cs := by
  rw [tokens_append hw.1, List.nil_append, tokens_blank, endWord_word hw.2]

theorem tokens_word_comma : tokens [] (w ++ ',' :: cs) = .word w :: .comma :: tokens [] cs := by
  rw [tokens_append hw.1, List.nil_append, tokens_comma, endWord_word hw.2]

theorem tokens_word_equals : tokens [] (w ++ '=' :: cs) = .word w :: .equals :: tokens [] cs := by
  rw [tokens_append hw.1, List.nil_append, tokens_equals, endWord_word hw.2]

end Text

/-- A blank in front of a word is skipped. -/
theorem tokens_nil_blank (cs : List Char) : tokens [] (' ' :: cs) = tokens [] cs := tokens_blank [] cs

/-- A line that is one mnemonic. -/
theorem assembleText_mnemonic {name : List Char} (hname : IsWord name) {l : AsmLine} {ws : List Word}
    (hl : parseTokens [.word name] = some l) (ha : assemble l = some ws) (comment : List Char) :
    assembleText (name ++ ';' :: comment) = .words ws := by
  rw [assembleText_eq (p := True) (tokens_word_comment hname comment) hl (by rw [ha, if_pos trivial]), if_pos trivial]

/-! The operands that each mnemonic with operands is parsed with. -/

theorem parseTokens_push (w : List Char) :
    parseTokens [.word ['P', 'U', 'S', 'H'], .word w] = (number w).map .push := rfl

theorem parseTokens_validate (ts : List Token) :
    parseTokens (.word ['V', 'A', 'L', 'I', 'D', 'A', 'T', 'E'] :: ts) = twoNumbers ts .validate := rfl

theorem parseTokens_build (ts : List Token) :
    parseTokens (.word ['B', 'U', 'I', 'L', 'D'] :: ts) = buildOperands ts := rfl

theorem parseTokens_pushb (ts : List Token) :
    parseTokens (.word ['P', 'U', 'S', 'H', 'B'] :: ts) = (numberList ts).map .pushb := rfl

theorem parseTokens_send {ts : List Token} {h : Nat} {ps : List Nat} (hts : numberList ts = some (h :: ps)) :
    parseTokens (.word ['S', 'E', 'N', 'D'] :: ts) = some (.send h ps) := by
  show (match numberList ts with | some (h :: ps) => some (AsmLine.send h ps) | _ => none) = _
  rw [hts]

section Spelled

variable {num : Nat → List Char} (hnum : ∀ n, number (num n) = some n) (hword : ∀ n, IsWord (num n)) (comment : List Char)
include hword

/-- Spelled numbers separated by commas, up to a comment. -/
theorem tokens_numbers (n : Nat) (ns : List Nat) :
    tokens [] ([','].intercalate ((n :: ns).map num) ++ ';' :: comment) = listTokens ((n :: ns).map num) := by
  refine tokens_intercalate (fun v hv => ?_) comment
  obtain ⟨m, -, rfl⟩ := List.mem_map.mp (List.map_cons ▸ hv)
  exact hword m

include hnum

theorem assembleText_push (d : Nat) : assembleText (['P', 'U', 'S', 'H'] ++ ' ' :: (num d ++ ';' :: comment)) =
    if d < 256 then .words [BitVec.ofNat 64 (2 ^ 60 + d)] else .error := by
  refine assembleText_eq (t := .word ['P', 'U', 'S', 'H']) (ts := [.word (num d)]) ?_ ?_ (assemble_push d)
  · rw [tokens_word_blank (isWord_of_check (by rfl)), tokens_word_comment (hword d)]
  · rw [parseTokens_push, hnum, Option.map_some]

theorem assembleText_validate (h n : Nat) :
    assembleText (['V', 'A', 'L', 'I', 'D', 'A', 'T', 'E'] ++ ' ' :: (num h ++ ',' :: ' ' :: (num n ++ ';' :: comment))) =
      if h < 2 ^ 32 ∧ n < 65536 then .words [BitVec.ofNat 64 (3 * 2 ^ 60 + n * 2 ^ 32 + h)] else .error := by
  refine assembleText_eq (t := .word ['V', 'A', 'L', 'I', 'D', 'A', 'T', 'E'])
    (ts := [.word (num h), .comma, .word (num n)]) ?_ ?_ (assemble_validate h n)
  · rw [tokens_word_blank (isWord_of_check (by rfl)), tokens_word_comma (hword h), tokens_nil_blank,
      tokens_word_comment (hword n)]
  · simp [parseTokens_validate, twoNumbers, numberList, hnum]

theorem assembleText_build (t e n : Nat) :
    assembleText (['B', 'U', 'I', 'L', 'D'] ++ ' ' :: (['t', 'y', 'p', 'e'] ++ '=' :: (num t ++ ',' :: ' ' ::
      (['e', 'n', 'c'] ++ '=' :: (num e ++ ',' :: ' ' :: (['n'] ++ '=' :: (num n ++ ';' :: comment))))))) =
      if t < 256 ∧ e < 4 ∧ n < 65536
        then .words [BitVec.ofNat 64 (4 * 2 ^ 60 + n * 2 ^ 32 + e * 2 ^ 8 + t)] else .error := by
  refine assembleText_eq (t := .word ['B', 'U', 'I', 'L', 'D'])
    (ts := [.word ['t', 'y', 'p', 'e'], .equals, .word (num t), .comma, .word ['e', 'n', 'c'], .equals, .word (num e), .comma,
      .word ['n'], .equals, .word (num n)]) ?_ ?_ (assemble_build t e n)
  · rw [tokens_word_blank (isWord_of_check (by rfl)),
      tokens_word_equals (isWord_of_check (by rfl)), tokens_word_comma (hword t), tokens_nil_blank,
      tokens_word_equals (isWord_of_check (by rfl)), tokens_word_comma (hword e), tokens_nil_blank,
      tokens_word_equals (isWord_of_check (by rfl)), tokens_word_comment (hword n)]
  · simp [parseTokens_build, buildOperands, hnum]

theorem assembleText_pushb (b : Nat) (bs : List Nat) :
    assembleText (['P', 'U', 'S', 'H', 'B'] ++ ' ' :: ([','].intercalate ((b :: bs).map num) ++ ';' :: comment)) =
      if ∀ x ∈ b :: bs, x < 256 then .words ((b :: bs).map fun x => BitVec.ofNat 64 (2 ^ 60 + x)) else .error := by
  refine assembleText_eq (t := .word ['P', 'U', 'S', 'H', 'B']) (ts := listTokens ((b :: bs).map num)) ?_ ?_
    (assemble_pushb (b :: bs))
  · rw [tokens_word_blank (isWord_of_check (by rfl)), tokens_numbers hword]
  · rw [parseTokens_pushb, numberList_listTokens hnum, Option.map_some]

theorem assembleText_send (h : Nat) (ps : List Nat) :
    assembleText (['S', 'E', 'N', 'D'] ++ ' ' :: ([','].intercalate ((h :: ps).map num) ++ ';' :: comment)) =
      if h < 2 ^ 32 ∧ ∀ x ∈ ps, x < 256 then .words (([h / 2 ^ 24, h / 2 ^ 16 % 256, h / 2 ^ 8 % 256, h % 256] ++ ps).map
        fun x => BitVec.ofNat 64 (2 ^ 60 + x)) else .error := by
  refine assembleText_eq (t := .word ['S', 'E', 'N', 'D']) (ts := listTokens ((h :: ps).map num)) ?_ ?_
    (assemble_send h ps)
  · rw [tokens_word_blank (isWord_of_check (by rfl)), tokens_numbers hword]
  · exact parseTokens_send (numberList_listTokens hnum h ps)

end Spelled

/-- Settles O45: the digits by `digits_map`, and each line form by its tokens. -/
theorem assemblerReadsEachLineForm : Obligations.AssemblerReadsEachLineForm := by
  refine ⟨fun ds => number_decimalDigits, fun ds letter => number_hexDigits, fun num comment h => ?_⟩
  have hnum : ∀ n, number (num n) = some n := fun n => (h n).1
  have hword : ∀ n, IsWord (num n) := fun n => ⟨(h n).2, number_ne_nil (hnum n)⟩
  refine ⟨by simp [assembleText, endWord_nil], ?_, fun d => ?_, ?_, fun x n => ?_, fun t e n => ?_, ?_, ?_, fun b bs => ?_,
    fun x ps => ?_⟩
  · exact assembleText_mnemonic (l := .nop) (isWord_of_check (by rfl)) rfl (by decide) comment
  · simpa using assembleText_push hnum hword comment d
  · exact assembleText_mnemonic (l := .pull) (isWord_of_check (by rfl)) rfl (by decide) comment
  · simpa using assembleText_validate hnum hword comment x n
  · simpa using assembleText_build hnum hword comment t e n
  · exact assembleText_mnemonic (l := .status) (isWord_of_check (by rfl)) rfl (by decide) comment
  · exact assembleText_mnemonic (l := .clear) (isWord_of_check (by rfl)) rfl (by decide) comment
  · simpa using assembleText_pushb hnum hword comment b bs
  · simpa using assembleText_send hnum hword comment x ps

end Sys2Proof

namespace Sys2Proof.Machine

/-! ### What a command answers (R65, R66, R188) -/

/-- The status codes of R66. -/
def definedCodes : List Nat := [0x0, 0x1, 0x2, 0x3, 0x8, 0x9, 0xA, 0xB, 0xC, 0xD]

theorem statusCode_defined (x : Status) : (statusCode x).toNat ∈ definedCodes := by
  cases x <;> decide

/-- An answer that is no delivery: no frame, a code of R66, and nothing else when the code is a failure. -/
def IsPlain (r : Response) : Prop :=
  r.frame = [] ∧ r.st.toNat ∈ definedCodes ∧ (8 ≤ r.st.toNat → r.rn = 0 ∧ r.rw = 0)

/-- The answer of a PULL that delivers the frame at the front of Q. -/
def IsDelivery (s : State) (r : Response) : Prop :=
  r.st = 0x0 ∧ 4 < r.rn.toNat ∧ r.rn.toNat = 4 + lengthField (bufferContent Config.phfd s) ∧
    r.frame = (bufferContent Config.phfd s).take r.rn.toNat ∧ r.frame.length = r.rn.toNat

/-- The echo of ERR while FAULTED (R111, R112). -/
def IsEcho (s : State) (r : Response) : Prop := s.faulted = true ∧ r = ⟨s.err, 0, 0, []⟩

/-- A code of R66 alone is a plain answer. -/
theorem isPlain_code {code : BitVec 4} (h : code.toNat ∈ definedCodes) : IsPlain ⟨code, 0, 0, []⟩ :=
  ⟨rfl, h, fun _ => ⟨rfl, rfl⟩⟩

/-- OK without a frame is a plain answer. -/
theorem isPlain_ok (rn : BitVec 16) (rw : BitVec 32) : IsPlain ⟨0x0, rn, rw, []⟩ :=
  ⟨rfl, by simp [definedCodes], fun h => absurd h (by simp)⟩

/-- In a state that meets the invariant ERR is a failure code while FAULTED, so an echo is a plain failure. -/
theorem IsEcho.plain {s : State} {r : Response} (h : IsEcho s r) (hs : Inv Config.phfd s) : IsPlain r ∧ r.st ≠ 0x0 := by
  obtain ⟨hf, rfl⟩ := h
  obtain ⟨hflags, hcode, -⟩ := hs
  have herr : s.err ≠ 0 := hflags.mp hf
  refine ⟨isPlain_code ?_, herr⟩
  rcases hcode with h0 | h8 | h9 | hA
  · exact absurd h0 herr
  · rw [h8]; decide
  · rw [h9]; decide
  · rw [hA]; decide

/-- The response that a state's `out` ends in is the only one it can end in. -/
theorem response_unique {s : State} {out : List Response} {r r' : Response} (h : out = s.out ++ [r']) (hr : out = s.out ++ [r]) :
    r = r' :=
  List.singleton_inj.mp (List.append_cancel_left (hr.symm.trans h))

/-- A stateless command gives a plain answer. -/
theorem exec_stateless_plain {i : Instr} (hi : isStateless i = true) {s t : State} {r : Response} (ht : exec i s = .next t)
    (hr : t.out = s.out ++ [r]) : IsPlain r := by
  cases i with
  | push d => cases hi
  | pull => cases hi
  | clear => cases hi
  | nop => cases ht; rw [response_unique rfl hr]; exact isPlain_ok 0 0
  | status => cases ht; rw [response_unique rfl hr]; exact isPlain_ok _ _
  | validate n h =>
    simp only [exec, execValidate, validate_eq] at ht
    split at ht <;> cases ht <;> rw [response_unique rfl hr]
    · exact isPlain_ok n h
    · exact isPlain_code (statusCode_defined _)
  | build n t e =>
    simp only [exec, execBuild, build_eq] at ht
    split at ht <;> cases ht <;> rw [response_unique rfl hr]
    · exact isPlain_ok _ _
    · exact isPlain_code (statusCode_defined _)

/-- PUSH answers plainly, or echoes. -/
theorem push_answer {d : Byte} {s : State} {r : Response} (hr : (push Config.phfd d s).out = s.out ++ [r]) :
    IsEcho s r ∨ IsPlain r := by
  rcases push_cases Config.phfd d s with ⟨hf, e⟩ | ⟨-, -, e⟩ | ⟨-, -, e⟩ <;> rw [e] at hr <;>
    rw [response_unique rfl hr]
  · exact .inl ⟨hf, rfl⟩
  · exact .inr (isPlain_code (by decide))
  · exact .inr (isPlain_ok _ _)

/-- PULL echoes, answers plainly and not OK, or delivers. -/
theorem pull_answer {s : State} {r : Response} (hr : (pull Config.phfd s).out = s.out ++ [r]) :
    IsEcho s r ∨ (IsPlain r ∧ r.st ≠ 0x0) ∨ IsDelivery s r := by
  rcases pull_cases Config.phfd s with ⟨hf, e⟩ | ⟨-, -, e⟩ | ⟨code, -, hc, e⟩ | ⟨-, -, e⟩ | ⟨n, -, hc, e⟩ <;>
    rw [e] at hr <;> rw [response_unique rfl hr]
  · exact .inl ⟨hf, rfl⟩
  · exact .inr (.inl ⟨isPlain_code (by decide), by decide⟩)
  · rcases (classify_fail hc).1 with rfl | rfl <;> exact .inr (.inl ⟨isPlain_code (by decide), by decide⟩)
  · exact .inr (.inl ⟨isPlain_code (by decide), by decide⟩)
  · obtain ⟨-, hlen, hmax, hq⟩ := classify_take hc
    have hmax : n + 1 < 1019 := hmax
    have hrn : (BitVec.ofNat 16 (4 + (n + 1))).toNat = 4 + (n + 1) := by rw [BitVec.toNat_ofNat]; omega
    refine .inr (.inr ⟨rfl, ?_, ?_, ?_, ?_⟩) <;> simp only [hrn]
    · omega
    · rw [hlen]
    · rw [List.length_take, Nat.min_eq_left hq]

/-- What performing a command word answers: an echo of ERR, a plain answer (not OK when the word is PULL), or, for PULL only, a
delivery. -/
theorem perform_answer {w : Word} {s t : State} {r : Response} (ht : perform w s = .next t) (hr : t.out = s.out ++ [r]) :
    IsEcho s r ∨ (IsPlain r ∧ (decode w = some .pull → r.st ≠ 0x0)) ∨ (decode w = some .pull ∧ IsDelivery s r) := by
  rcases perform_cases w s with ⟨i, hd, e⟩ | ⟨hd, e⟩ <;> rw [e] at ht
  · rw [hd, Option.some_inj]
    rcases exec_cases ht with ⟨hi, -⟩ | ⟨d, rfl, rfl⟩ | ⟨rfl, rfl⟩ | ⟨rfl, rfl⟩
    · refine .inr (.inl ⟨exec_stateless_plain hi ht hr, ?_⟩)
      rintro rfl
      cases hi
    · exact (push_answer hr).imp_right fun h => .inl ⟨h, by simp⟩
    · exact (pull_answer hr).imp_right (.imp (fun h => ⟨h.1, fun _ => h.2⟩) fun h => ⟨rfl, h⟩)
    · rw [response_unique rfl hr]
      exact .inr (.inl ⟨isPlain_ok 0 0, by simp⟩)
  · cases ht
    rw [response_unique rfl hr, hd]
    exact .inr (.inl ⟨isPlain_code (by decide), by simp⟩)

/-- The same from a state that meets the invariant: an echo is then a plain answer too. -/
theorem perform_answer_of_inv {w : Word} {s t : State} {r : Response} (hs : Inv Config.phfd s) (ht : perform w s = .next t)
    (hr : t.out = s.out ++ [r]) :
    (IsPlain r ∧ (decode w = some .pull → r.st ≠ 0x0)) ∨ (decode w = some .pull ∧ IsDelivery s r) := by
  rcases perform_answer ht hr with h | h
  · exact .inl ((h.plain hs).imp_right fun hst _ => hst)
  · exact h

/-- Every command word gets one response, behind the earlier ones. -/
theorem perform_out {w : Word} {s t : State} (ht : perform w s = .next t) : ∃ r, t.out = s.out ++ [r] := by
  rcases perform_cases w s with ⟨i, -, e⟩ | ⟨-, e⟩ <;> rw [e] at ht
  · exact (exec_interface ht).1
  · cases ht
    exact ⟨_, rfl⟩

/-- Settles O4: a command word's response is `perform_answer`; a reset leaves `out` alone. -/
theorem oneResponsePerCommandInOrder : Obligations.OneResponsePerCommandInOrder := by
  intro s t ht
  refine ⟨fun w rest hin => ?_, fun draw rest hin => ?_, fun w draw rest hin => ?_⟩
  · have hp : perform w { s with input := rest } = .next t := (step_command hin).symm.trans ht
    obtain ⟨r, hr⟩ := perform_out hp
    refine ⟨r, hr, fun hs hpull hok => ?_, fun hno => ?_⟩
    · have hs' : Inv Config.phfd { s with input := rest } := hs
      rcases perform_answer_of_inv hs' hp hr with ⟨-, hst⟩ | ⟨-, -, hmore, -, -, hlen⟩
      · exact absurd hok (hst hpull)
      · exact ⟨hmore, hlen⟩
    · rcases perform_answer hp hr with ⟨-, rfl⟩ | ⟨⟨hframe, -⟩, -⟩ | ⟨hpull, hok, -⟩
      · rfl
      · exact hframe
      · exact absurd hno (by simp [hpull, hok])
  · cases (step_reset hin).symm.trans ht
    rfl
  · cases (step_resetDuring hin).symm.trans ht
    rfl

/-- The response word as a number: three fields that do not overlap (R65). -/
theorem responseWord_toNat (r : Response) :
    (responseWord r).toNat = r.st.toNat * 2 ^ 60 + r.rn.toNat * 2 ^ 32 + r.rw.toNat := by
  have hst := r.st.isLt
  have hrn := r.rn.isLt
  have hrw := r.rw.isLt
  have hlow : r.rn.toNat * 2 ^ 32 ||| r.rw.toNat = r.rn.toNat * 2 ^ 32 + r.rw.toNat := by
    rw [← Nat.shiftLeft_eq, Nat.shiftLeft_add_eq_or_of_lt hrw]
  have hhigh : r.st.toNat * 2 ^ 60 ||| (r.rn.toNat * 2 ^ 32 + r.rw.toNat) =
      r.st.toNat * 2 ^ 60 + (r.rn.toNat * 2 ^ 32 + r.rw.toNat) := by
    rw [← Nat.shiftLeft_eq, Nat.shiftLeft_add_eq_or_of_lt (by omega)]
  simp (disch := omega) only [responseWord, BitVec.toNat_or, BitVec.toNat_shiftLeft, BitVec.toNat_setWidth,
    Nat.shiftLeft_eq, Nat.mod_eq_of_lt]
  rw [Nat.or_assoc, hlow, hhigh, Nat.add_assoc]

/-- Settles O11: the layout is `responseWord_toNat`, and what a command word answers is a plain answer or a delivery. -/
theorem responseLayoutAndFrame : Obligations.ResponseLayoutAndFrame := by
  refine ⟨responseWord_toNat, fun s t r w rest hs hin ht hr => ?_⟩
  rw [step_command hin] at ht
  have hs' : Inv Config.phfd { s with input := rest } := hs
  rcases perform_answer_of_inv hs' ht hr with ⟨⟨hframe, -, hzero⟩, hst⟩ | ⟨hpull, hok, hmore, hrn, hframe, hlen⟩
  · exact ⟨fun h => absurd hframe h, fun hpull hok => absurd hok (hst hpull),
      fun h8 => ⟨(hzero h8).1, (hzero h8).2, hframe⟩⟩
  · exact ⟨fun _ => ⟨hpull, hok⟩, fun _ _ => ⟨hlen ▸ hmore, hlen, hrn, hframe⟩, fun h8 => absurd h8 (by simp [hok])⟩

/-- Settles O12: only a command word is answered, and its answers are plain or OK. -/
theorem onlyDefinedStatusCodesAreReturned : Obligations.OnlyDefinedStatusCodesAreReturned := by
  intro s t r hs ht hr
  rcases step_cases s with ⟨-, e⟩ | ⟨w, rest, -, e⟩ | ⟨draw, rest, -, e⟩ | ⟨w, draw, rest, -, e⟩ <;> rw [e] at ht
  · cases ht
  · have hs' : Inv Config.phfd { s with input := rest } := hs
    rcases perform_answer_of_inv hs' ht hr with ⟨⟨-, hcode, -⟩, -⟩ | ⟨-, hok, -⟩
    · exact hcode
    · simp [hok]
  · cases ht
    simp at hr
  · cases ht
    simp at hr

/-! ### A host that drains never sees FULL (R74, R166) -/

/-- What DRAIN is to reach: the last answer is not OK, and a framer that is not faulted holds at most 1021 bytes. -/
def Drained (s : State) : Prop :=
  (∃ r, lastResponse s = some r ∧ r.st ≠ 0x0) ∧ (s.faulted = false → s.count ≤ 1021)

theorem lastResponse_respond (st : BitVec 4) (rn : BitVec 16) (rw : BitVec 32) (f : List Byte) (s : State) :
    lastResponse (respond st rn rw f s) = some ⟨st, rn, rw, f⟩ := by
  simp [lastResponse]

/-- No packet yet means less than the longest frame: at most 1021 bytes. -/
theorem length_le_of_noPacket {q : List Byte} (h : classify Config.phfd q = .noPacket) : q.length ≤ 1021 := by
  rcases classify_cases Config.phfd q with ⟨hq, -⟩ | ⟨-, -, e⟩ | ⟨-, -, -, e⟩ | ⟨-, -, hmax, hq, -⟩ | ⟨-, -, -, e⟩
  · omega
  · cases e.symm.trans h
  · cases e.symm.trans h
  · have hmax : lengthField q < 1019 := hmax
    omega
  · cases e.symm.trans h

/-- The last answer of a drained framer is not OK. -/
theorem Drained.not_ok {s : State} (h : Drained s) : (lastResponse s).map (·.st) ≠ some (statusCode .ok) := by
  obtain ⟨⟨r, hr, hst⟩, -⟩ := h
  rw [hr]
  exact fun hok => hst (Option.some_inj.mp hok)

/-- One PULL either drains, or is answered OK and makes the buffer shorter. -/
theorem pull_drains_or_frees {s : State} (hs : Inv Config.phfd s) :
    Drained (pull Config.phfd s) ∨
    ((lastResponse (pull Config.phfd s)).map (·.st) = some (statusCode .ok) ∧ (pull Config.phfd s).count < s.count) := by
  obtain ⟨hflags, -⟩ := hs
  rcases pull_cases Config.phfd s with ⟨hf, e⟩ | ⟨-, hc, e⟩ | ⟨code, -, hc, e⟩ | ⟨-, -, e⟩ | ⟨n, -, hc, e⟩ <;> rw [e]
  · exact .inl ⟨⟨_, lastResponse_respond .., hflags.mp hf⟩, fun hf' => by simp [hf] at hf'⟩
  · have hcount := length_le_of_noPacket hc
    rw [bufferContent_length] at hcount
    exact .inl ⟨⟨_, lastResponse_respond .., by decide⟩, fun _ => hcount⟩
  · have hcode : code ≠ 0x0 := by rcases (classify_fail hc).1 with rfl | rfl <;> decide
    exact .inl ⟨⟨_, lastResponse_respond .., hcode⟩, fun hf' => by simp at hf'⟩
  · exact .inl ⟨⟨_, lastResponse_respond .., by decide⟩, fun hf' => by simp at hf'⟩
  · obtain ⟨-, -, -, hq⟩ := classify_take hc
    rw [bufferContent_length] at hq
    refine .inr ⟨by rw [lastResponse_respond]; rfl, ?_⟩
    simp only [respond_count, consume_count]
    omega

/-- The drain's loop, with more fuel than bytes, drains. -/
theorem drainLoop_drained {fuel : Nat} {s : State} (hs : Inv Config.phfd s) (hfuel : s.count < fuel) :
    Drained (drainLoop Config.phfd fuel s) := by
  induction fuel generalizing s with
  | zero => omega
  | succ fuel ih =>
    rw [drainLoop]
    rcases pull_drains_or_frees hs with hd | ⟨hok, hcount⟩
    · rw [if_neg hd.not_ok]
      exact hd
    · rw [if_pos hok]
      exact ih hs.pull (by omega)

/-- A framer that is not FAULTED and has room for all of a byte list answers OK to each of its PUSHes. -/
theorem runCommands_pushBytes {bytes : List Byte} {s : State} (hf : s.faulted = false)
    (hroom : s.count + bytes.length ≤ 2048) : ∃ t rs, runCommands (pushBytes bytes) s = .next t ∧ t.out = s.out ++ rs ∧
      rs.length = bytes.length ∧ ∀ r ∈ rs, r.st = 0x0 := by
  induction bytes generalizing s with
  | nil => exact ⟨s, [], rfl, by simp, rfl, by simp⟩
  | cons d bytes ih =>
    rw [List.length_cons] at hroom
    have hnotFull : s.count ≠ Config.phfd.bufCap := by
      show s.count ≠ 2048
      omega
    have hpush : push Config.phfd d s = respond 0x0 (BitVec.ofNat 16 (s.count + 1)) 0 [] (storeByte Config.phfd d s) := by
      rcases push_cases Config.phfd d s with ⟨hf', -⟩ | ⟨-, hfull, -⟩ | ⟨-, -, e⟩
      · simp [hf] at hf'
      · exact absurd hfull hnotFull
      · exact e
    obtain ⟨t, rs, hrun, hout, hlen, hok⟩ := ih (s := push Config.phfd d s) (by rw [hpush]; exact hf)
      (by rw [hpush, respond_count, storeByte_count]; omega)
    refine ⟨t, ⟨0x0, BitVec.ofNat 16 (s.count + 1), 0, []⟩ :: rs, hrun, ?_, by simp [hlen], ?_⟩
    · rw [hout, hpush, respond_out, storeByte_out, List.append_assoc, List.singleton_append]
    · exact List.forall_mem_cons.mpr ⟨rfl, hok⟩

/-- Settles O41: the drain drains, and 1021 bytes leave room for a chunk of 1024. -/
theorem drainedHostNeverSeesFull : Obligations.DrainedHostNeverSeesFull := by
  intro s chunk hs
  obtain ⟨hlast, hcount⟩ : Drained (drain Config.phfd s) := drainLoop_drained hs (Nat.lt_succ_self _)
  refine ⟨hlast, fun hf => ⟨hcount hf, fun hchunk => runCommands_pushBytes hf ?_⟩⟩
  have := hcount hf
  omega

end Sys2Proof.Machine
end

section
/-! PROOFS. The family of 40_packet.md: header words and bytes, VALIDATE and BUILD, what PULL's answer reads, and the packet that BUILD
heads through the framer. -/

namespace Sys2Proof.Machine

/-! ### The fields of a header word and its bytes (R42, R43, R68) -/

section Header

variable (v : BitVec 8) (e : BitVec 2) (t : BitVec 6) (n : BitVec 16)

@[simp] theorem headerVersion_packHeader : headerVersion (packHeader v e t n) = v := by
  apply BitVec.eq_of_toNat_eq
  have := e.isLt; have := t.isLt; have := n.isLt
  rw [headerVersion_toNat, packHeader_toNat]
  omega

@[simp] theorem headerEncoding_packHeader : headerEncoding (packHeader v e t n) = e := by
  apply BitVec.eq_of_toNat_eq
  have := e.isLt; have := t.isLt; have := n.isLt
  rw [headerEncoding, BitVec.extractLsb'_toNat, packHeader_toNat, Nat.shiftRight_eq_div_pow]
  omega

@[simp] theorem headerType_packHeader : headerType (packHeader v e t n) = t := by
  apply BitVec.eq_of_toNat_eq
  have := t.isLt; have := n.isLt
  rw [headerType, BitVec.extractLsb'_toNat, packHeader_toNat, Nat.shiftRight_eq_div_pow]
  omega

@[simp] theorem headerLength_packHeader : headerLength (packHeader v e t n) = n := by
  apply BitVec.eq_of_toNat_eq
  have := n.isLt
  rw [headerLength_toNat, packHeader_toNat]
  omega

end Header

@[simp] theorem headerBytes_length (h : HeaderWord) : (headerBytes h).length = 4 := rfl

/-- The first of the header bytes is the version. -/
theorem byteAt_zero_headerBytes (h : HeaderWord) (x : List Byte) : byteAt (headerBytes h ++ x) 0 = headerVersion h := rfl

/-- The length field of the header bytes is the low half of the word. -/
theorem lengthField_headerBytes (h : HeaderWord) (x : List Byte) :
    lengthField (headerBytes h ++ x) = (headerLength h).toNat := by
  have hbytes : lengthField (headerBytes h ++ x) = (h.extractLsb' 8 8).toNat * 256 + (h.extractLsb' 0 8).toNat := rfl
  rw [hbytes, headerLength_toNat, BitVec.extractLsb'_toNat, BitVec.extractLsb'_toNat, Nat.shiftRight_eq_div_pow,
    Nat.shiftRight_zero]
  omega

/-- A header word is read back from its bytes. -/
theorem hdrword_headerBytes (h : HeaderWord) (x : List Byte) : hdrword (headerBytes h ++ x) = h := by
  apply BitVec.eq_of_toNat_eq
  have hsecond : byteAt (headerBytes h ++ x) 1 = h.extractLsb' 16 8 := rfl
  have := h.isLt
  rw [hdrword_toNat, byteAt_zero_headerBytes, hsecond, lengthField_headerBytes, headerVersion_toNat, headerLength_toNat,
    BitVec.extractLsb'_toNat, Nat.shiftRight_eq_div_pow]
  omega

/-- The bytes of a list's header word are the first four of the list. -/
theorem headerBytes_hdrword : ∀ {q : List Byte}, 4 ≤ q.length → headerBytes (hdrword q) = q.take 4
  | b0 :: b1 :: b2 :: b3 :: x, _ => by
    have hword := hdrword_toNat (b0 :: b1 :: b2 :: b3 :: x)
    simp only [byteAt, lengthField, List.getD_cons_zero, List.getD_cons_succ] at hword
    have := b0.isLt; have := b1.isLt; have := b2.isLt; have := b3.isLt
    simp only [headerBytes, List.take_succ_cons, List.take_zero, List.cons.injEq, and_true]
    refine ⟨?_, ?_, ?_, ?_⟩ <;> apply BitVec.eq_of_toNat_eq <;>
      rw [BitVec.extractLsb'_toNat, hword, Nat.shiftRight_eq_div_pow] <;> omega

/-! ### The Packet value (R80 to R86, R89) -/

/-- The header word of a list, made of what the accessors read from it. -/
theorem packHeader_accessors (f : List Byte) :
    packHeader (packetVersion f) (packetEncoding f) (packetType f) (BitVec.ofNat 16 (packetLength f)) = hdrword f := by
  have hlen : packetLength f < 2 ^ 16 := by
    have := (byteAt f 2).isLt; have := (byteAt f 3).isLt
    rw [packetLength, lengthField]
    omega
  have henc : (packetEncoding f).toNat = (byteAt f 1).toNat / 2 ^ 6 := by
    have := (byteAt f 1).isLt
    rw [packetEncoding, BitVec.extractLsb'_toNat, Nat.shiftRight_eq_div_pow]
    omega
  have htype : (packetType f).toNat = (byteAt f 1).toNat % 2 ^ 6 := by
    rw [packetType, BitVec.extractLsb'_toNat, Nat.shiftRight_zero]
  apply BitVec.eq_of_toNat_eq
  rw [packHeader_toNat, hdrword_toNat, henc, htype, BitVec.toNat_ofNat, Nat.mod_eq_of_lt hlen, packetVersion, packetLength]
  omega

/-- Settles O43: the accessors make the header word, whose bytes are the first four; `data` is the rest. -/
theorem packetAccessorsReadTheHeader : Obligations.PacketAccessorsReadTheHeader := by
  rintro c f ⟨hfive, hversion, hlen, -⟩
  refine ⟨hversion, ?_, ?_, ?_⟩
  · rw [packetData, List.length_drop, packetLength, hlen]
  · rw [packetTotalLength, packetLength, hlen]
    omega
  · rw [packHeader_accessors, headerBytes_hdrword (by omega), packetData, List.take_append_drop]

/-- Settles O44: the two branches of `readInto`; the packet and the tail it keeps are appended. -/
theorem readIntoCopiesOrLeavesDestination : Obligations.ReadIntoCopiesOrLeavesDestination := by
  intro f dst
  refine ⟨fun hshort => if_pos hshort, fun hfits => ⟨f ++ dst.drop f.length, if_neg (Nat.not_lt.mpr hfits), ?_, ?_, ?_⟩⟩
  · rw [List.length_append, List.length_drop]
    omega
  · exact List.take_left
  · exact List.drop_left

/-! ### VALIDATE and BUILD (R87, R88, R91) -/

/-- A word that VALIDATE's row selects is VALIDATE with its operand fields (R64). -/
theorem decode_of_rowValidate {w : Word} (h : rowValidate.selects w = true) :
    decode w = some (.validate (fieldN w) (fieldH w)) := by
  obtain ⟨o, r, n, v, rfl⟩ := exists_fieldsWord w
  obtain ⟨rfl, rfl⟩ := (rowValidate_selects _ _ _ _).mp h
  rw [decode_fieldsWord]
  simp

/-- A word that BUILD's row selects is BUILD with its operand fields (R64). -/
theorem decode_of_rowBuild {w : Word} (h : rowBuild.selects w = true) :
    decode w = some (.build (fieldN w) (fieldT w) (fieldE w)) := by
  obtain ⟨o, r, n, v, rfl⟩ := exists_fieldsWord w
  obtain ⟨rfl, rfl, hv⟩ := (rowBuild_selects _ _ _ _).mp h
  rw [decode_fieldsWord]
  simp [hv]

/-- VALIDATE's checks on numbers, for this hardware's version. -/
theorem validateStatus_phfd (n : Nat) (h : HeaderWord) :
    validateStatus Config.phfd n h =
      if h.toNat / 2 ^ 24 ≠ 1 then .versionMismatch
      else if n ≤ 4 then .emptyPayload
      else if h.toNat % 2 ^ 16 + 4 ≠ n then .lengthMismatch
      else .ok := by
  have hversion : headerVersion h ≠ Config.phfd.version ↔ h.toNat / 2 ^ 24 ≠ 1 := by
    rw [← headerVersion_toNat]
    exact BitVec.toNat_ne
  unfold validateStatus
  refine if_congr hversion rfl ?_
  by_cases hn : n ≤ 4
  · rw [if_pos hn, if_pos hn]
  · have hlen : (headerLength h).toNat ≠ n - 4 ↔ h.toNat % 2 ^ 16 + 4 ≠ n := by
      rw [headerLength_toNat]
      omega
    rw [if_neg hn, if_neg hn]
    exact if_congr hlen rfl rfl

/-- Settles O21: the row's words, and one answer per outcome of the checks. -/
theorem validateChecksVersionThenLength : Obligations.ValidateChecksVersionThenLength := by
  refine ⟨fun w hw => decode_of_rowValidate (selects_iff.mpr hw), fun n h s => ?_⟩
  rw [exec, execValidate, validate_eq, validateStatus_phfd]
  by_cases hversion : h.toNat / 2 ^ 24 ≠ 1
  · rw [if_pos hversion, if_pos hversion]
    rfl
  rw [if_neg hversion, if_neg hversion]
  by_cases hempty : n.toNat ≤ 4
  · rw [if_pos hempty, if_pos hempty]
    rfl
  rw [if_neg hempty, if_neg hempty]
  by_cases hlen : h.toNat % 2 ^ 16 + 4 ≠ n.toNat
  · rw [if_pos hlen, if_pos hlen]
    rfl
  · rw [if_neg hlen, if_neg hlen]
    rfl

/-- The header BUILD makes as a number, when the type fits its six bits. -/
theorem buildHeader_toNat (c : Config) (n : BitVec 16) {t : BitVec 8} (e : BitVec 2) (ht : t.toNat ≤ 63) :
    (buildHeader c n t e).toNat = c.version.toNat * 2 ^ 24 + e.toNat * 2 ^ 22 + t.toNat * 2 ^ 16 + n.toNat := by
  rw [buildHeader, packHeader_toNat, BitVec.extractLsb'_toNat, Nat.shiftRight_zero, Nat.mod_eq_of_lt (by omega)]

/-- The header BUILD makes, written as its number (R88). -/
theorem buildHeader_phfd (n : BitVec 16) {t : BitVec 8} (e : BitVec 2) (ht : t.toNat ≤ 62) :
    buildHeader Config.phfd n t e = BitVec.ofNat 32 (1 * 2 ^ 24 + e.toNat * 2 ^ 22 + t.toNat * 2 ^ 16 + n.toNat) := by
  have hversion : Config.phfd.version.toNat = 1 := rfl
  have hnum := buildHeader_toNat Config.phfd n e (ht.trans (by decide))
  rw [hversion] at hnum
  rw [← hnum, BitVec.ofNat_toNat, BitVec.setWidth_eq]

/-- BUILD's checks on numbers, for this hardware's limits. -/
theorem buildStatus_phfd (n t : Nat) :
    buildStatus Config.phfd n t =
      if 1019 < n then .payloadTooLarge
      else if n = 0 then .emptyPayload
      else if 62 < t then .typeOutOfRange
      else .ok := rfl

/-- Settles O22: the row's words, and one answer per outcome of the checks. -/
theorem buildMakesTheHeaderWord : Obligations.BuildMakesTheHeaderWord := by
  refine ⟨fun w hw => decode_of_rowBuild (selects_iff.mpr hw), fun n t e s => ?_⟩
  rw [exec, execBuild, build_eq, buildStatus_phfd]
  by_cases hlarge : 1019 < n.toNat
  · rw [if_pos hlarge, if_pos hlarge]
    rfl
  rw [if_neg hlarge, if_neg hlarge]
  by_cases hempty : n.toNat = 0
  · rw [if_pos hempty, if_pos hempty]
    rfl
  rw [if_neg hempty, if_neg hempty]
  by_cases htype : 62 < t.toNat
  · rw [if_pos htype, if_pos htype]
    rfl
  · rw [if_neg htype, if_neg htype, ← buildHeader_phfd n e (Nat.le_of_not_lt htype)]
    rfl

/-- BUILD of a payload count and a type in range answers OK with the header (R88). -/
theorem build_ok {c : Config} {n : BitVec 16} {t : BitVec 8} (hpos : 1 ≤ n.toNat) (hmax : n.toNat ≤ c.maxPayload)
    (ht : t.toNat ≤ c.maxTypeEnc) (e : BitVec 2) (s : State) :
    build c n t e s = respond 0x0 (BitVec.ofNat 16 (n.toNat + 4)) (buildHeader c n t e) [] s := by
  have hok : buildStatus c n.toNat t.toNat = .ok := by
    rw [buildStatus, if_neg (by omega), if_neg (by omega), if_neg (by omega)]
  rw [build_eq, if_pos hok]

/-- VALIDATE accepts a header of the right version whose length field is the raw length less the header (R87). -/
theorem validate_ok {c : Config} {n : BitVec 16} {h : HeaderWord} (hversion : headerVersion h = c.version)
    (hmore : 4 < n.toNat) (hlen : (headerLength h).toNat + 4 = n.toNat) (s : State) :
    validate c n h s = respond 0x0 n h [] s := by
  have hsub : ¬(headerLength h).toNat ≠ n.toNat - 4 := by omega
  have hok : validateStatus c n.toNat h = .ok := by
    rw [validateStatus, if_neg (not_not.mpr hversion), if_neg (Nat.not_le.mpr hmore), if_neg hsub]
  rw [validate_eq, if_pos hok]

/-- Settles O23: BUILD makes a packed header, whose fields VALIDATE checks and the statement reads. -/
theorem buildThenValidateRoundTrip : Obligations.BuildThenValidateRoundTrip := by
  rintro c n t e s ⟨-, -, -, htypes⟩ ht hpos hmax hfits
  have htotal : (n + 4).toNat = n.toNat + 4 := by
    rw [BitVec.toNat_add]
    exact Nat.mod_eq_of_lt hfits
  have htype : (t.extractLsb' 0 6).toNat = t.toNat := by
    rw [BitVec.extractLsb'_toNat, Nat.shiftRight_zero, Nat.mod_eq_of_lt (by omega)]
  have hversion : headerVersion (buildHeader c n t e) = c.version := headerVersion_packHeader ..
  have hlen : headerLength (buildHeader c n t e) = n := headerLength_packHeader ..
  refine ⟨BitVec.ofNat 16 (n.toNat + 4), buildHeader c n t e, ?_, ?_, headerEncoding_packHeader .., ?_, hlen⟩
  · rw [build_ok hpos hmax ht]
    rfl
  · rw [validate_ok hversion (by omega) (by rw [hlen, htotal])]
    rfl
  · exact (congrArg BitVec.toNat (headerType_packHeader ..)).trans htype

/-! ### What PULL's answer reads (R93, R110, R112) -/

/-- The answer of PULL, from FAULTED, ERR, Q and the boundary decision (R112). -/
def pullAnswer (c : Config) (faulted : Bool) (err : BitVec 4) (q : List Byte) : Response :=
  if faulted then ⟨err, 0, 0, []⟩
  else
    match classify c q with
    | .noPacket => ⟨0x1, 0, 0, []⟩
    | .fail code => ⟨code, 0, 0, []⟩
    | .take 0 => ⟨0xA, 0, 0, []⟩
    | .take (n + 1) => ⟨0x0, BitVec.ofNat 16 (4 + (n + 1)), hdrword q, q.take (4 + (n + 1))⟩

/-- PULL returns that answer. -/
theorem pull_out (c : Config) (s : State) :
    (pull c s).out = s.out ++ [pullAnswer c s.faulted s.err (bufferContent c s)] := by
  rcases pull_cases c s with ⟨hf, e⟩ | ⟨hf, hc, e⟩ | ⟨code, hf, hc, e⟩ | ⟨hf, hc, e⟩ | ⟨n, hf, hc, e⟩ <;> rw [e]
  · simp [pullAnswer, hf]
  · simp [pullAnswer, hf, hc]
  · simp [pullAnswer, hf, hc]
  · simp [pullAnswer, hf, hc]
  · simp [pullAnswer, hf, hc, hdrword_take]

/-- Equal first four bytes give equal header bytes. -/
theorem byteAt_congr {q q' : List Byte} (h : q'.take 4 = q.take 4) {i : Nat} (hi : i < 4) : byteAt q' i = byteAt q i := by
  rw [← byteAt_take hi, h, byteAt_take hi]

/-- Equal first four bytes give equal length fields. -/
theorem lengthField_congr {q q' : List Byte} (h : q'.take 4 = q.take 4) : lengthField q' = lengthField q := by
  rw [← lengthField_take le_rfl, h, lengthField_take le_rfl]

/-- Equal first four bytes give equal header words. -/
theorem hdrword_congr {q q' : List Byte} (h : q'.take 4 = q.take 4) : hdrword q' = hdrword q := by
  rw [← hdrword_take le_rfl, h, hdrword_take le_rfl]

/-- The boundary decision depends on the number of bytes and the first four of them. -/
theorem classify_congr (c : Config) {q q' : List Byte} (hlen : q'.length = q.length) (h : q'.take 4 = q.take 4) :
    classify c q' = classify c q := by
  unfold classify
  rw [hlen, byteAt_congr h (by decide), lengthField_congr h]

/-- Status, count and word of PULL's answer depend on these too, besides FAULTED and ERR. -/
theorem pullAnswer_congr (c : Config) (faulted : Bool) (err : BitVec 4) {q q' : List Byte} (hlen : q'.length = q.length)
    (h : q'.take 4 = q.take 4) :
    (pullAnswer c faulted err q').st = (pullAnswer c faulted err q).st ∧
      (pullAnswer c faulted err q').rn = (pullAnswer c faulted err q).rn ∧
      (pullAnswer c faulted err q').rw = (pullAnswer c faulted err q).rw := by
  unfold pullAnswer
  rw [classify_congr c hlen h, hdrword_congr h]
  split
  · exact ⟨rfl, rfl, rfl⟩
  · split <;> exact ⟨rfl, rfl, rfl⟩

/-- Settles O28: VALIDATE's one answer is that of O21, which names no state; PULL's is `pullAnswer`. -/
theorem decisionReadsHeaderAndLengthOnly : Obligations.DecisionReadsHeaderAndLengthOnly := by
  refine ⟨fun n h => ⟨_, fun s => validateChecksVersionThenLength.2 n h s⟩, fun c s s' hcount hf he htake => ?_⟩
  have hlen : (bufferContent c s').length = (bufferContent c s).length := by
    rw [bufferContent_length, bufferContent_length, hcount]
  refine ⟨classify_congr c hlen htake, fun r r' hr hr' => ?_⟩
  rw [response_unique (pull_out c s) hr, response_unique (pull_out c s') hr', hf, he]
  exact pullAnswer_congr c s.faulted s.err hlen htake

/-! ### A built packet through the framer (R92) -/

/-- A packet with a header of the right version: OVERSIZE from MAX_PAYLOAD on, and below it the frame is taken (R110). -/
theorem classify_headerBytes {c : Config} {h : HeaderWord} {payload : List Byte} (hversion : headerVersion h = c.version)
    (hlen : (headerLength h).toNat = payload.length) :
    classify c (headerBytes h ++ payload) =
      if c.maxPayload ≤ payload.length then .fail 0x9 else .take payload.length := by
  have htotal : (headerBytes h ++ payload).length = 4 + payload.length := by simp
  have hheader : ¬4 + payload.length < 4 := by omega
  unfold classify
  rw [htotal, byteAt_zero_headerBytes, lengthField_headerBytes, hlen, if_neg hheader, if_neg (not_not.mpr hversion),
    if_neg (Nat.lt_irrefl _)]
  rfl

/-- PUSHes into a framer that is not FAULTED and has room append their bytes to Q (R24, R111). -/
theorem runCommands_pushBytes_content {bytes : List Byte} {s : State} (hs : Inv Config.phfd s) (hf : s.faulted = false)
    (hroom : s.count + bytes.length ≤ 2048) :
    ∃ t, runCommands (pushBytes bytes) s = .next t ∧ t.faulted = false ∧
      bufferContent Config.phfd t = bufferContent Config.phfd s ++ bytes := by
  induction bytes generalizing s with
  | nil => exact ⟨s, rfl, hf, (List.append_nil _).symm⟩
  | cons d bytes ih =>
    rw [List.length_cons] at hroom
    have ⟨_, _, _, _, hwf, _⟩ := hs
    have hfree : s.count < 2048 := by omega
    have hq : bufferContent Config.phfd (push Config.phfd d s) = bufferContent Config.phfd s ++ [d] :=
      (logicalContentGrowsAndShrinksAsAList Config.phfd s hwf hf).1 d hfree
    have hcount : (push Config.phfd d s).count = s.count + 1 := by
      rw [← bufferContent_length Config.phfd, hq, List.length_append, bufferContent_length, List.length_singleton]
    obtain ⟨t, hrun, hft, hqt⟩ := ih (hs.push d) ((push_flags _ d s).1.trans hf) (by omega)
    exact ⟨t, hrun, hft, by rw [hqt, hq, List.append_assoc, List.singleton_append]⟩

/-- The answer of PULL is the last one. -/
theorem lastResponse_pull (c : Config) (s : State) :
    lastResponse (pull c s) = some (pullAnswer c s.faulted s.err (bufferContent c s)) := by
  rw [lastResponse, pull_out, List.getLast?_concat]

/-- PULL delivers such a packet whole while its payload is not empty and below MAX_PAYLOAD. -/
theorem pullAnswer_packet {c : Config} {h : HeaderWord} {payload : List Byte} (hversion : headerVersion h = c.version)
    (hlen : (headerLength h).toNat = payload.length) (hpos : 1 ≤ payload.length) (hmax : payload.length < c.maxPayload)
    (err : BitVec 4) :
    pullAnswer c false err (headerBytes h ++ payload) =
      ⟨0x0, BitVec.ofNat 16 (4 + payload.length), h, headerBytes h ++ payload⟩ := by
  obtain ⟨m, hm⟩ := Nat.exists_eq_add_of_le' hpos
  have hc : classify c (headerBytes h ++ payload) = .take (m + 1) := by
    rw [classify_headerBytes hversion hlen, if_neg (Nat.not_le.mpr hmax), hm]
  have hwhole : (headerBytes h ++ payload).take (4 + (m + 1)) = headerBytes h ++ payload :=
    List.take_of_length_le (by simp [hm])
  simp only [pullAnswer, hc, hwhole, hdrword_headerBytes, hm]
  rfl

/-- PULL answers OVERSIZE to such a packet from a payload of MAX_PAYLOAD bytes on. -/
theorem pullAnswer_oversize {c : Config} {h : HeaderWord} {payload : List Byte} (hversion : headerVersion h = c.version)
    (hlen : (headerLength h).toNat = payload.length) (hmax : c.maxPayload ≤ payload.length) (err : BitVec 4) :
    pullAnswer c false err (headerBytes h ++ payload) = ⟨0x9, 0, 0, []⟩ := by
  have hc : classify c (headerBytes h ++ payload) = .fail 0x9 := by
    rw [classify_headerBytes hversion hlen, if_pos hmax]
  simp only [pullAnswer, hc]
  rfl

/-- A packet sent to an empty framer that is not FAULTED is what the next PULL decides on (R74, R112). -/
theorem sendPacket_then_pull {h : HeaderWord} {payload : List Byte} {s : State} (hs : Inv Config.phfd s)
    (hf : s.faulted = false) (hempty : s.count = 0) (hroom : 4 + payload.length ≤ 2048) :
    ∃ u err, runCommands (sendPacket h payload ++ [.pull]) s = .next u ∧
      lastResponse u = some (pullAnswer Config.phfd false err (headerBytes h ++ payload)) := by
  have hbytes : s.count + (headerBytes h ++ payload).length ≤ 2048 := by
    rw [hempty, List.length_append, headerBytes_length]
    omega
  obtain ⟨t, hrun, hft, hq⟩ := runCommands_pushBytes_content hs hf hbytes
  have hnil : bufferContent Config.phfd s = [] := List.length_eq_zero_iff.mp (by rw [bufferContent_length, hempty])
  refine ⟨pull Config.phfd t, t.err, ?_, ?_⟩
  · rw [sendPacket, runCommands_append hrun]
    rfl
  · rw [lastResponse_pull, hft, hq, hnil, List.nil_append]

/-- Settles O39: BUILD's answer is `build_ok`, whose header the PUSHes put before the payload in Q; the PULL then answers
`pullAnswer_packet` or `pullAnswer_oversize`. -/
theorem builtPacketComesThroughTheFramer : Obligations.BuiltPacketComesThroughTheFramer := by
  intro n t e payload s sb rn h hs hf hempty ht hpos hmax hpay hbuild hout
  rw [exec, execBuild, build_ok hpos hmax ht] at hbuild
  cases hbuild
  cases response_unique (respond_out ..) hout
  have hversion : headerVersion (buildHeader Config.phfd n t e) = Config.phfd.version := headerVersion_packHeader ..
  have hlen : (headerLength (buildHeader Config.phfd n t e)).toNat = payload.length := by
    rw [hpay, buildHeader, headerLength_packHeader]
  obtain ⟨u, err, hrun, hlast⟩ :=
    sendPacket_then_pull (h := buildHeader Config.phfd n t e) (payload := payload) (hs.respond _ _ _ _) hf hempty (by omega)
  refine ⟨u, hrun, fun hshort => ?_, fun hlong => ?_⟩
  · have hlt : payload.length < 1019 := by omega
    rw [hlast, pullAnswer_packet hversion hlen (hpay ▸ hpos) hlt, hpay, Nat.add_comm]
  · have hge : 1019 ≤ payload.length := by omega
    rw [hlast, pullAnswer_oversize hversion hlen hge]

end Sys2Proof.Machine
end

section
/-! PROOFS. The family of 41_framer.md: PUSH and PULL, the boundary decision, what a PULL delivers and what a failure leaves, and
the streams of R113 to R116. -/

namespace Sys2Proof.Machine

/-! ### The boundary decision, from what Q holds (R110, R114) -/

theorem classify_of_short {c : Config} {q : List Byte} (hq : q.length < 4) : classify c q = .noPacket := by
  unfold classify
  rw [if_pos hq]

theorem classify_of_version_ne {c : Config} {q : List Byte} (hq : 4 ≤ q.length) (hversion : byteAt q 0 ≠ c.version) :
    classify c q = .fail 0x8 := by
  unfold classify
  rw [if_neg (Nat.not_lt.mpr hq), if_pos hversion]
  rfl

theorem classify_of_oversize {c : Config} {q : List Byte} (hq : 4 ≤ q.length) (hversion : byteAt q 0 = c.version)
    (hmax : c.maxPayload ≤ lengthField q) : classify c q = .fail 0x9 := by
  unfold classify
  rw [if_neg (Nat.not_lt.mpr hq), if_neg (not_not.mpr hversion), if_pos hmax]
  rfl

theorem classify_of_incomplete {c : Config} {q : List Byte} (hq : 4 ≤ q.length) (hversion : byteAt q 0 = c.version)
    (hmax : lengthField q < c.maxPayload) (hshort : q.length < 4 + lengthField q) : classify c q = .noPacket := by
  unfold classify
  rw [if_neg (Nat.not_lt.mpr hq), if_neg (not_not.mpr hversion), if_neg (Nat.not_le.mpr hmax), if_pos hshort]

theorem classify_of_whole_frame {c : Config} {q : List Byte} (hversion : byteAt q 0 = c.version)
    (hmax : lengthField q < c.maxPayload) (hq : 4 + lengthField q ≤ q.length) : classify c q = .take (lengthField q) := by
  unfold classify
  rw [if_neg (Nat.not_lt.mpr (Nat.le_of_add_right_le hq)), if_neg (not_not.mpr hversion), if_neg (Nat.not_le.mpr hmax),
    if_neg (Nat.not_lt.mpr hq)]

/-- More bytes do not change a decision once it is reachable: it reads the first four bytes, and the frame is there. -/
theorem classify_append {c : Config} {q : List Byte} (x : List Byte) (h : classify c q ≠ .noPacket) :
    classify c (q ++ x) = classify c q := by
  have hlen : q.length ≤ (q ++ x).length := by simp
  rcases classify_cases c q with ⟨-, e⟩ | ⟨hq, hversion, e⟩ | ⟨hq, hversion, hmax, e⟩ | ⟨-, -, -, -, e⟩ |
    ⟨hversion, hmax, hq, e⟩
  · exact absurd e h
  · rw [← byteAt_append (x := x) (by omega)] at hversion
    rw [e, classify_of_version_ne (hq.trans hlen) hversion]
  · rw [← byteAt_append (x := x) (by omega)] at hversion
    rw [← lengthField_append (x := x) hq] at hmax
    rw [e, classify_of_oversize (hq.trans hlen) hversion hmax]
  · exact absurd e h
  · have hfield : lengthField (q ++ x) = lengthField q := lengthField_append (by omega)
    rw [← byteAt_append (x := x) (by omega)] at hversion
    rw [← hfield] at hmax hq
    rw [e, classify_of_whole_frame hversion hmax (hq.trans hlen), hfield]

/-- The same, with the decision named. -/
theorem classify_append_of_eq {c : Config} {q : List Byte} {b : Boundary} (x : List Byte) (hc : classify c q = b)
    (hb : b ≠ .noPacket) : classify c (q ++ x) = b :=
  (classify_append x (hc ▸ hb)).trans hc

/-- A packet below MAX_PAYLOAD at the front of Q is taken, whatever follows it. -/
theorem classify_packet_append {c : Config} {f : List Byte} (hf : IsPacket c f) (hmax : lengthField f < c.maxPayload)
    (x : List Byte) : classify c (f ++ x) = .take (lengthField f) := by
  obtain ⟨hfive, hversion, hlen, -⟩ := hf
  exact classify_append_of_eq x (classify_of_whole_frame hversion hmax (by omega)) nofun

/-- A full buffer of a valid build always allows a decision: it holds the longest frame. -/
theorem classify_ne_noPacket_of_full {c : Config} {q : List Byte} (hc : c.Valid) (hq : q.length = c.bufCap) :
    classify c q ≠ .noPacket := by
  obtain ⟨hpos, hcap, -, -⟩ := hc
  have hcap : 4 + c.maxPayload - 1 ≤ c.bufCap := hcap
  intro h
  rcases classify_cases c q with ⟨hshort, -⟩ | ⟨-, -, e⟩ | ⟨-, -, -, e⟩ | ⟨-, -, hmax, hshort, -⟩ | ⟨-, -, -, e⟩
  · omega
  · cases e.symm.trans h
  · cases e.symm.trans h
  · omega
  · cases e.symm.trans h

/-! ### PUSH and PULL, one rule per outcome (R111, R112) -/

theorem push_of_faulted (c : Config) (d : Byte) {s : State} (hf : s.faulted = true) :
    push c d s = respond s.err 0 0 [] s := by
  simp [push, hf]

theorem push_of_full {c : Config} (d : Byte) {s : State} (hf : s.faulted = false) (hfull : s.count = c.bufCap) :
    push c d s = respond 0x2 0 0 [] s := by
  simp [push, hf, hfull, statusCode]

theorem push_of_room {c : Config} (d : Byte) {s : State} (hf : s.faulted = false) (hroom : s.count ≠ c.bufCap) :
    push c d s = respond 0x0 (BitVec.ofNat 16 (s.count + 1)) 0 [] (storeByte c d s) := by
  simp [push, hf, hroom, statusCode]

section Pull

variable {c : Config} {s : State} (hf : s.faulted = false)
include hf

theorem pull_of_noPacket (hc : classify c (bufferContent c s) = .noPacket) : pull c s = respond 0x1 0 0 [] s := by
  simp [pull, hf, hc, statusCode]

theorem pull_of_fail {code : BitVec 4} (hc : classify c (bufferContent c s) = .fail code) :
    pull c s = respond code 0 0 [] (latchFailure code s) := by
  simp [pull, hf, hc]

theorem pull_of_empty (hc : classify c (bufferContent c s) = .take 0) :
    pull c s = respond 0xA 0 0 [] (latchFailure 0xA (consume c 4 s)) := by
  simp [pull, hf, hc, deliver, statusCode]

theorem pull_of_take {n : Nat} (hc : classify c (bufferContent c s) = .take (n + 1)) :
    pull c s =
      respond 0x0 (BitVec.ofNat 16 (4 + (n + 1))) (hdrword ((bufferContent c s).take (4 + (n + 1))))
        ((bufferContent c s).take (4 + (n + 1))) (consume c (4 + (n + 1)) s) := by
  obtain ⟨-, -, -, hq⟩ := classify_take hc
  rw [bufferContent_length] at hq
  simp [pull, hf, hc, deliver, statusCode, copyOut_eq_take hq]

end Pull

/-- Settles O27: `classify_append`; and of the answers of PULL only the echo and NONE, which only respond, can be 0x1. -/
theorem classifyIsMonotone : Obligations.ClassifyIsMonotone := by
  refine ⟨fun c q x h => classify_append x h, fun s t r ht hr hst => ?_⟩
  cases ht
  rcases pull_cases Config.phfd s with ⟨-, e⟩ | ⟨-, -, e⟩ | ⟨code, -, hc, e⟩ | ⟨-, -, e⟩ | ⟨n, -, -, e⟩ <;> rw [e] at hr ⊢ <;>
    rw [response_unique rfl hr] at hst
  · rfl
  · rfl
  · rcases (classify_fail hc).1 with rfl | rfl <;> cases hst
  · cases hst
  · cases hst

/-- A word that PUSH's row selects is PUSH with its operand field (R64). -/
theorem decode_of_rowPush {w : Word} (h : rowPush.selects w = true) : decode w = some (.push (fieldD w)) := by
  obtain ⟨o, r, n, v, rfl⟩ := exists_fieldsWord w
  obtain ⟨rfl, rfl, rfl, hv⟩ := (rowPush_selects _ _ _ _).mp h
  rw [decode_fieldsWord]
  simp [hv]

/-- Settles O24: the row's words, and one rule per outcome; the store writes one cell. -/
theorem pushStoresOneByteEchoesOrAnswersFull : Obligations.PushStoresOneByteEchoesOrAnswersFull := by
  refine ⟨fun w hw => decode_of_rowPush (selects_iff.mpr hw), fun _ => rfl, fun d s hwf => ?_⟩
  rw [exec, execPush]
  refine ⟨fun hf => ?_, fun hf hfull => ?_, fun hf hroom => ?_⟩
  · rw [push_of_faulted _ d hf]
    rfl
  · rw [push_of_full d hf hfull]
    rfl
  · refine ⟨_, congrArg _ (push_of_room d hf hroom), rfl, rfl, rfl, rfl, rfl, rfl, fun a => ?_⟩
    exact readCells_writeCells hwf _ d a

/-- A word that PULL's row selects is PULL. -/
theorem decode_of_rowPull {w : Word} (h : rowPull.selects w = true) : decode w = some .pull := by
  obtain ⟨o, r, n, v, rfl⟩ := exists_fieldsWord w
  obtain ⟨rfl, rfl, rfl, rfl⟩ := (rowPull_selects _ _ _ _).mp h
  rw [decode_fieldsWord]
  simp

/-- The header word, made of the number of its bytes. -/
theorem hdrword_eq_ofNat (q : List Byte) :
    hdrword q = BitVec.ofNat 32 ((byteAt q 0).toNat * 2 ^ 24 + (byteAt q 1).toNat * 2 ^ 16 + lengthField q) := by
  rw [← hdrword_toNat, BitVec.ofNat_toNat, BitVec.setWidth_eq]

/-- Settles O25: the checks in their order, each outcome with its rule of PULL. -/
theorem pullDecidesThenDeliversOrFails : Obligations.PullDecidesThenDeliversOrFails := by
  refine ⟨fun w hw => decode_of_rowPull (selects_iff.mpr hw), fun s => ?_⟩
  intro q len
  have hq : q.length = s.count := bufferContent_length _ s
  rw [exec, execPull]
  by_cases hf : s.faulted = true
  · rw [pull_of_faulted _ hf, if_pos hf]
    rfl
  rw [if_neg hf]
  replace hf : s.faulted = false := Bool.eq_false_of_not_eq_true hf
  by_cases h4 : s.count < 4
  · rw [if_pos h4, pull_of_noPacket hf (classify_of_short (hq ▸ h4))]
    rfl
  rw [if_neg h4]
  replace h4 : 4 ≤ q.length := hq ▸ Nat.le_of_not_lt h4
  by_cases hversion : byteAt q 0 ≠ 1
  · rw [if_pos hversion, pull_of_fail hf (classify_of_version_ne h4 hversion)]
    rfl
  rw [if_neg hversion]
  replace hversion : byteAt q 0 = 1 := not_not.mp hversion
  by_cases hmax : 1019 ≤ len
  · rw [if_pos hmax, pull_of_fail hf (classify_of_oversize h4 hversion hmax)]
    rfl
  rw [if_neg hmax]
  replace hmax : len < 1019 := Nat.lt_of_not_le hmax
  by_cases hshort : s.count < 4 + len
  · rw [if_pos hshort, pull_of_noPacket hf (classify_of_incomplete h4 hversion hmax (hq ▸ hshort))]
    rfl
  rw [if_neg hshort]
  have hc : classify Config.phfd q = .take len := classify_of_whole_frame hversion hmax (hq ▸ Nat.le_of_not_lt hshort)
  by_cases hzero : len = 0
  · rw [if_pos hzero, pull_of_empty hf (hzero ▸ hc)]
    rfl
  · obtain ⟨n, hn⟩ := Nat.exists_eq_add_of_le' (Nat.pos_of_ne_zero hzero)
    rw [if_neg hzero, pull_of_take hf (hn ▸ hc), hdrword_take (Nat.le_add_right 4 _), hdrword_eq_ofNat, ← hn]
    rfl

/-! ### What a PULL delivers (R118, R119) -/

theorem headerVersion_hdrword {q : List Byte} : headerVersion (hdrword q) = byteAt q 0 := by
  apply BitVec.eq_of_toNat_eq
  have := (byteAt q 1).isLt; have := (byteAt q 2).isLt; have := (byteAt q 3).isLt
  rw [headerVersion_toNat, hdrword_toNat, lengthField]
  omega

theorem headerLength_hdrword {q : List Byte} : (headerLength (hdrword q)).toNat = lengthField q := by
  have := (byteAt q 2).isLt; have := (byteAt q 3).isLt
  rw [headerLength_toNat, hdrword_toNat, lengthField]
  omega

/-- The checks of VALIDATE pass on every Packet (R80, R87). -/
theorem validateStatus_packet {c : Config} {f : List Byte} (hf : IsPacket c f) :
    validateStatus c f.length (hdrword f) = .ok := by
  obtain ⟨hfive, hversion, hlen, -⟩ := hf
  have hnonempty : ¬f.length ≤ 4 := by omega
  unfold validateStatus
  rw [headerVersion_hdrword, headerLength_hdrword, if_neg (not_not.mpr hversion), if_neg hnonempty, if_neg (not_not.mpr hlen)]

/-- The frame that a TAKE with a payload cuts off Q is a Packet of n + 1 payload bytes. -/
theorem isPacket_take {c : Config} {q : List Byte} {n : Nat} (hc : classify c q = .take (n + 1)) :
    (q.take (4 + (n + 1))).length = 4 + (n + 1) ∧ lengthField (q.take (4 + (n + 1))) = n + 1 ∧
      IsPacket c (q.take (4 + (n + 1))) := by
  obtain ⟨hversion, hlen, -, hq⟩ := classify_take hc
  have hlength : (q.take (4 + (n + 1))).length = 4 + (n + 1) := List.length_take_of_le hq
  have hfield : lengthField (q.take (4 + (n + 1))) = n + 1 := (lengthField_take (by omega)).trans hlen.symm
  refine ⟨hlength, hfield, by omega, ?_, by omega, by omega⟩
  rw [byteAt_take (by omega), hversion]

/-- Settles O29: OK is the answer to a TAKE only, whose frame is a Packet; BUF_CAP bounds RN. -/
theorem deliveredFrameIsAPacket : Obligations.DeliveredFrameIsAPacket := by
  intro c s r hvalid hf hr hok
  obtain ⟨-, hcap, hword, -⟩ := hvalid
  have hcap : 4 + c.maxPayload - 1 ≤ c.bufCap := hcap
  rcases pull_cases c s with ⟨hf', -⟩ | ⟨-, -, e⟩ | ⟨code, -, hc, e⟩ | ⟨-, -, e⟩ | ⟨n, -, hc, e⟩
  · simp [hf] at hf'
  all_goals
    rw [e] at hr
    obtain rfl := response_unique rfl hr
  · cases hok
  · rcases (classify_fail hc).1 with rfl | rfl <;> cases hok
  · cases hok
  · obtain ⟨-, -, hmax, -⟩ := classify_take hc
    obtain ⟨hlength, hfield, hpacket⟩ := isPacket_take hc
    have hframe : c.maxFrame = 4 + (c.maxPayload - 1) := rfl
    have hrn : (BitVec.ofNat 16 (4 + (n + 1))).toNat = 4 + (n + 1) := by
      rw [BitVec.toNat_ofNat]
      omega
    refine ⟨hpacket, ?_, ?_, hpacket.1, ?_, hrn.trans hlength.symm, validateStatus_packet hpacket⟩
    · rw [packetLength, hfield]
      omega
    · rw [packetLength, hfield]
      omega
    · rw [hlength, hframe]
      omega

/-- Settles O30: the decision is reachable, so a PULL fails and latches, or consumes at least five of the buffered bytes. -/
theorem fullBufferNeverStalls : Obligations.FullBufferNeverStalls := by
  intro c s hvalid hfull hf
  have hne : classify c (bufferContent c s) ≠ .noPacket :=
    classify_ne_noPacket_of_full hvalid ((bufferContent_length c s).trans hfull)
  refine ⟨hne, ?_⟩
  rcases pull_cases c s with ⟨hf', -⟩ | ⟨-, hc, -⟩ | ⟨code, -, hc, e⟩ | ⟨-, -, e⟩ | ⟨n, -, hc, e⟩
  · simp [hf] at hf'
  · exact absurd hc hne
  all_goals
    rw [e]
    refine ⟨_, rfl, ?_⟩
  · refine .inr ⟨?_, rfl⟩
    rcases (classify_fail hc).1 with rfl | rfl <;> decide
  · exact .inr ⟨by decide, rfl⟩
  · obtain ⟨-, -, -, hq⟩ := classify_take hc
    obtain ⟨-, -, hfive, -⟩ := isPacket_take hc
    rw [bufferContent_length] at hq
    refine .inl ⟨rfl, List.ne_nil_of_length_pos (Nat.zero_lt_of_lt hfive), ?_⟩
    rw [respond_count, consume_count]
    omega

/-! ### After a failure (R117) -/

/-- What a command is answered while FAULTED with ERR = err, as far as it is a PUSH or a PULL. -/
def EchoesErr (err : BitVec 4) (i : Instr) (r : Response) : Prop := isFramerCommand i = true → r = ⟨err, 0, 0, []⟩

/-- While FAULTED a command but CLEAR changes no state element, and PUSH and PULL echo ERR. -/
theorem exec_of_faulted {i : Instr} {s t : State} (hf : s.faulted = true) (hi : i ≠ .clear) (ht : exec i s = .next t) :
    SameFramer s t ∧ ∃ r, t.out = s.out ++ [r] ∧ EchoesErr s.err i r := by
  rcases exec_cases ht with ⟨hst, st, rn, rw, rfl⟩ | ⟨d, rfl, rfl⟩ | ⟨rfl, rfl⟩ | ⟨rfl, -⟩
  · refine ⟨sameFramer_respond .., _, rfl, fun h => ?_⟩
    cases i <;> cases hst <;> cases h
  · rw [push_of_faulted _ d hf]
    exact ⟨sameFramer_respond .., _, rfl, fun _ => rfl⟩
  · rw [pull_of_faulted _ hf]
    exact ⟨sameFramer_respond .., _, rfl, fun _ => rfl⟩
  · exact absurd rfl hi

/-- The same of every run without CLEAR. -/
theorem runCommands_of_faulted {cmds : List Instr} {s t : State} (hf : s.faulted = true) (hc : ∀ i ∈ cmds, i ≠ .clear)
    (hrun : runCommands cmds s = .next t) :
    SameFramer s t ∧ ∃ rs, t.out = s.out ++ rs ∧ List.Forall₂ (EchoesErr s.err) cmds rs := by
  induction cmds generalizing s with
  | nil =>
    cases hrun
    exact ⟨sameFramer_refl _, [], (List.append_nil _).symm, .nil⟩
  | cons i is ih =>
    obtain ⟨hi, his⟩ := List.forall_mem_cons.mp hc
    obtain ⟨u, hu, hrun⟩ := runCommands_cons hrun
    obtain ⟨⟨hbuf, hhead, hcount, hfu, herr⟩, r, hr, hecho⟩ := exec_of_faulted hf hi hu
    obtain ⟨⟨hbuf', hhead', hcount', hft, herr'⟩, rs, hrs, hechoes⟩ := ih (hfu.trans hf) his hrun
    refine ⟨⟨hbuf'.trans hbuf, hhead'.trans hhead, hcount'.trans hcount, hft.trans hfu, herr'.trans herr⟩, r :: rs, ?_,
      .cons hecho (herr ▸ hechoes)⟩
    rw [hrs, hr, List.append_assoc, List.singleton_append]

/-- A PULL that answers a failure code of the framer leaves FAULTED and ERR with that code. -/
theorem pull_latches {c : Config} {s : State} {code : BitVec 4} (hcode : code = 0x8 ∨ code = 0x9 ∨ code = 0xA)
    (hr : (pull c s).out = s.out ++ [⟨code, 0, 0, []⟩]) : (pull c s).faulted = true ∧ (pull c s).err = code := by
  rcases pull_cases c s with ⟨hf, e⟩ | ⟨-, -, e⟩ | ⟨code', -, -, e⟩ | ⟨-, -, e⟩ | ⟨n, -, -, e⟩ <;> rw [e] at hr ⊢ <;>
    have hst := congrArg Response.st (response_unique rfl hr)
  · exact ⟨hf, hst.symm⟩
  · subst hst
    simp at hcode
  · exact ⟨rfl, hst.symm⟩
  · exact ⟨rfl, hst.symm⟩
  · subst hst
    simp at hcode

/-- Settles O31: the failing PULL latches its code, and a FAULTED framer echoes it. -/
theorem failureIsStickyUntilClear : Obligations.FailureIsStickyUntilClear := by
  intro s s' t code cmds hcode hpull hout hc hrun
  cases hpull
  obtain ⟨hf, herr⟩ := pull_latches hcode hout
  obtain ⟨hsame, rs, hrs, hechoes⟩ := runCommands_of_faulted hf hc hrun
  refine ⟨hsame, rs, hrs, hechoes.length_eq.symm, fun k i r hi hr hframer => ?_⟩
  obtain ⟨hk, rfl⟩ := List.getElem?_eq_some_iff.mp hi
  obtain ⟨hk', rfl⟩ := List.getElem?_eq_some_iff.mp hr
  rw [← herr]
  exact hechoes.get hk hk' hframer

/-! ### Pushed packets come out in order (R113, R116) -/

/-- The answer to a stored PUSH that makes COUNT = n. -/
def pushAnswer (n : Nat) : Response := ⟨0x0, BitVec.ofNat 16 n, 0, []⟩

/-- The answer of the PULL that delivers f. -/
def packetAnswer (f : List Byte) : Response := ⟨0x0, BitVec.ofNat 16 f.length, hdrword f, f⟩

/-- PUSHes that fit are answered with the counts that follow COUNT. -/
theorem runCommands_pushBytes_out {bytes : List Byte} {s : State} (hf : s.faulted = false)
    (hroom : s.count + bytes.length ≤ 2048) :
    ∃ t, runCommands (pushBytes bytes) s = .next t ∧
      t.out = s.out ++ (List.range bytes.length).map fun j => pushAnswer (s.count + (j + 1)) := by
  induction bytes generalizing s with
  | nil => exact ⟨s, rfl, (List.append_nil _).symm⟩
  | cons d bytes ih =>
    rw [List.length_cons] at hroom
    have hnotFull : s.count < 2048 := by omega
    have hpush := push_of_room (c := Config.phfd) d hf hnotFull.ne
    have hcount : (push Config.phfd d s).count = s.count + 1 := congrArg State.count hpush
    have hout : (push Config.phfd d s).out = s.out ++ [pushAnswer (s.count + 1)] := congrArg State.out hpush
    obtain ⟨t, hrun, ht⟩ := ih (s := push Config.phfd d s) ((push_flags _ d s).1.trans hf) (by omega)
    refine ⟨t, hrun, ?_⟩
    rw [ht, hout, hcount, List.append_assoc, List.length_cons, List.range_succ_eq_map]
    simp [Nat.add_comm, Nat.add_left_comm]

/-- A PULL delivers the packet at the front of Q, which is below MAX_PAYLOAD, and consumes it. -/
theorem pull_packet {c : Config} {s : State} {f x : List Byte} (hs : s.faulted = false) (hq : bufferContent c s = f ++ x)
    (hf : IsPacket c f) (hmax : lengthField f < c.maxPayload) :
    pull c s = respond 0x0 (BitVec.ofNat 16 f.length) (hdrword f) f (consume c f.length s) := by
  have hc : classify c (bufferContent c s) = .take (lengthField f) := hq ▸ classify_packet_append hf hmax x
  obtain ⟨hfive, -, hlen, hpos⟩ := hf
  obtain ⟨n, hn⟩ := Nat.exists_eq_add_of_le' hpos
  have htotal : 4 + (n + 1) = f.length := by omega
  rw [pull_of_take hs (hn ▸ hc), htotal, hq, List.take_left]

/-- One PULL per packet in Q and one more: the packets in order, then NONE, and Q is empty. -/
theorem runCommands_pulls {fs : List (List Byte)} {s : State} (hs : s.faulted = false)
    (hq : bufferContent Config.phfd s = fs.flatten) (hfs : ∀ f ∈ fs, IsPacket Config.phfd f ∧ packetLength f ≤ 1018) :
    ∃ t, runCommands (List.replicate (fs.length + 1) .pull) s = .next t ∧
      t.out = s.out ++ fs.map packetAnswer ++ [⟨0x1, 0, 0, []⟩] ∧ bufferContent Config.phfd t = [] := by
  induction fs generalizing s with
  | nil =>
    have hc : classify Config.phfd (bufferContent Config.phfd s) = .noPacket := classify_of_short (by simp [hq])
    refine ⟨pull Config.phfd s, rfl, ?_, ?_⟩ <;> rw [pull_of_noPacket hs hc]
    · simp
    · exact hq
  | cons f fs ih =>
    obtain ⟨⟨hf, hmax⟩, hfs⟩ := List.forall_mem_cons.mp hfs
    have hpull := pull_packet hs hq hf (Nat.lt_succ_of_le hmax)
    have hrest : bufferContent Config.phfd (pull Config.phfd s) = fs.flatten := by
      rw [hpull, bufferContent_respond, bufferContent_consume, hq, List.flatten_cons, List.drop_left]
    obtain ⟨t, hrun, hout, hempty⟩ := ih ((congrArg State.faulted hpull).trans hs) hrest hfs
    refine ⟨t, hrun, ?_, hempty⟩
    rw [hout, hpull]
    simp [packetAnswer]

/-- Settles O38: the PUSHes put the packets into Q, and the PULLs take them out one by one. -/
theorem pushedPacketsAreDeliveredInOrder : Obligations.PushedPacketsAreDeliveredInOrder := by
  intro fs s hs hf hempty hfs hfits
  have hroom : s.count + fs.flatten.length ≤ 2048 := by omega
  have hnil : bufferContent Config.phfd s = [] := List.length_eq_zero_iff.mp (by rw [bufferContent_length, hempty])
  obtain ⟨t, hrun, hft, hq⟩ := runCommands_pushBytes_content hs hf hroom
  obtain ⟨t', hrun', hout⟩ := runCommands_pushBytes_out hf hroom
  cases hrun.symm.trans hrun'
  rw [hnil, List.nil_append] at hq
  obtain ⟨u, hpulls, hu, hend⟩ := runCommands_pulls hft hq hfs
  refine ⟨u, (runCommands_append hrun).trans hpulls, ?_, hend⟩
  rw [hu, hout]
  simp only [hempty, Nat.zero_add]
  rfl

/-! ### Fragmentation (R115) -/

section StreamFrames

variable {c : Config} {q : List Byte}

theorem streamFrames_of_noPacket (hc : classify c q = .noPacket) : streamFrames c q = ⟨[], 0x1, q⟩ := by
  rw [streamFrames_eq, hc]

theorem streamFrames_of_fail {code : BitVec 4} (hc : classify c q = .fail code) : streamFrames c q = ⟨[], code, q⟩ := by
  rw [streamFrames_eq, hc]

theorem streamFrames_of_empty (hc : classify c q = .take 0) : streamFrames c q = ⟨[], 0xA, q.drop 4⟩ := by
  rw [streamFrames_eq, hc]

theorem streamFrames_of_take {n : Nat} (hc : classify c q = .take (n + 1)) :
    streamFrames c q =
      { streamFrames c (q.drop (4 + (n + 1))) with
        frames := q.take (4 + (n + 1)) :: (streamFrames c (q.drop (4 + (n + 1)))).frames } := by
  rw [streamFrames_eq, hc]

end StreamFrames

/-- The outcome with the frames that earlier responses delivered in front of its own. -/
def StreamOutcome.after (rs : List Response) (o : StreamOutcome) : StreamOutcome :=
  { o with frames := deliveredFrames rs ++ o.frames }

/-- What R115 asks of an observed outcome o', the loop's being o: the same frames and last status, and what is left is a
prefix of the loop's remainder (a failure keeps the bytes that came after it out of Q), or all of it at NONE. -/
def StreamOutcome.MatchedBy (o o' : StreamOutcome) : Prop :=
  o'.frames = o.frames ∧ o'.last = o.last ∧ (o'.last = 0x1 → o'.rest = o.rest) ∧ o'.rest <+: o.rest

/-- The outcome still ahead of a framer when the bytes p are to come: the loop on Q and p, or the latched failure. -/
def outcomeFrom (s : State) (p : List Byte) : StreamOutcome :=
  if s.faulted then ⟨[], s.err, bufferContent Config.phfd s⟩ else streamFrames Config.phfd (bufferContent Config.phfd s ++ p)

theorem outcomeFrom_of_faulted {s : State} (hf : s.faulted = true) (p : List Byte) :
    outcomeFrom s p = ⟨[], s.err, bufferContent Config.phfd s⟩ := if_pos hf

theorem outcomeFrom_of_not_faulted {s : State} (hf : s.faulted = false) (p : List Byte) :
    outcomeFrom s p = streamFrames Config.phfd (bufferContent Config.phfd s ++ p) := if_neg (by simp [hf])

@[simp] theorem outcomeFrom_respond (st : BitVec 4) (rn : BitVec 16) (rw : BitVec 32) (f : List Byte) (s : State)
    (p : List Byte) : outcomeFrom (respond st rn rw f s) p = outcomeFrom s p := rfl

theorem outcomeFrom_latchFailure (code : BitVec 4) (s : State) (p : List Byte) :
    outcomeFrom (latchFailure code s) p = ⟨[], code, bufferContent Config.phfd s⟩ := rfl

theorem StreamOutcome.after_of_no_frame {r : Response} (hr : r.frame = []) (o : StreamOutcome) : o.after [r] = o := by
  simp [after, deliveredFrames, hr]

theorem StreamOutcome.after_of_frame {r : Response} (hr : r.frame ≠ []) (o : StreamOutcome) :
    o.after [r] = { o with frames := r.frame :: o.frames } := by
  simp [after, deliveredFrames, hr]

theorem StreamOutcome.after_after (rs rs' : List Response) (o : StreamOutcome) :
    (o.after rs').after rs = o.after (rs ++ rs') := by
  simp [after, deliveredFrames]

theorem StreamOutcome.MatchedBy.refl (o : StreamOutcome) : o.MatchedBy o := ⟨rfl, rfl, fun _ => rfl, List.prefix_rfl⟩

theorem StreamOutcome.MatchedBy.trans {o o' o'' : StreamOutcome} (h : o.MatchedBy o') (h' : o'.MatchedBy o'') :
    o.MatchedBy o'' := by
  obtain ⟨hframes, hlast, hrest, hprefix⟩ := h
  obtain ⟨hframes', hlast', hrest', hprefix'⟩ := h'
  exact ⟨hframes'.trans hframes, hlast'.trans hlast, fun h1 => (hrest' h1).trans (hrest (hlast' ▸ h1)),
    hprefix'.trans hprefix⟩

/-- Frames delivered before change nothing in the match. -/
theorem StreamOutcome.MatchedBy.after {o o' : StreamOutcome} (h : o.MatchedBy o') (rs : List Response) :
    (o.after rs).MatchedBy (o'.after rs) := by
  obtain ⟨hframes, hlast, hrest, hprefix⟩ := h
  exact ⟨congrArg (deliveredFrames rs ++ ·) hframes, hlast, hrest, hprefix⟩

/-- A PUSH that is not answered FULL moves its byte from those to come into Q, or echoes the failure. -/
theorem outcomeFrom_push {d : Byte} {s : State} {r : Response} (hs : Inv Config.phfd s)
    (hr : (push Config.phfd d s).out = s.out ++ [r]) (hst : r.st ≠ 0x2) (p : List Byte) :
    r.frame = [] ∧ outcomeFrom (push Config.phfd d s) p = outcomeFrom s (d :: p) := by
  obtain ⟨-, -, hcount, -, hwf, -⟩ := hs
  rcases push_cases Config.phfd d s with ⟨hf, e⟩ | ⟨-, -, e⟩ | ⟨hf, hroom, e⟩ <;> rw [e] at hr ⊢ <;>
    obtain rfl := response_unique rfl hr
  · rw [outcomeFrom_respond, outcomeFrom_of_faulted hf, outcomeFrom_of_faulted hf]
    exact ⟨rfl, rfl⟩
  · exact absurd rfl hst
  · rw [outcomeFrom_respond, outcomeFrom_of_not_faulted (s := storeByte _ _ _) hf, outcomeFrom_of_not_faulted hf,
      bufferContent_storeByte hwf (Nat.lt_of_le_of_ne hcount hroom), List.append_assoc, List.singleton_append]
    exact ⟨rfl, rfl⟩

/-- A PULL makes one round of the loop: the bytes to come change neither its decision nor its frame, and a failure keeps
them out of Q. -/
theorem outcomeFrom_pull {s : State} {r : Response} (hr : (pull Config.phfd s).out = s.out ++ [r]) (p : List Byte) :
    (outcomeFrom s p).MatchedBy ((outcomeFrom (pull Config.phfd s) p).after [r]) := by
  rcases pull_cases Config.phfd s with ⟨hf, e⟩ | ⟨-, -, e⟩ | ⟨code, hf, hc, e⟩ | ⟨hf, hc, e⟩ | ⟨n, hf, hc, e⟩ <;>
    rw [e] at hr ⊢ <;> obtain rfl := response_unique rfl hr <;> rw [outcomeFrom_respond]
  · rw [StreamOutcome.after_of_no_frame rfl]
    exact .refl _
  · rw [StreamOutcome.after_of_no_frame rfl]
    exact .refl _
  · have hcp : classify Config.phfd (bufferContent Config.phfd s ++ p) = .fail code :=
      classify_append_of_eq p hc nofun
    have hcode : code ≠ 0x1 := by rcases (classify_fail hc).1 with rfl | rfl <;> decide
    rw [StreamOutcome.after_of_no_frame rfl, outcomeFrom_latchFailure, outcomeFrom_of_not_faulted hf,
      streamFrames_of_fail hcp]
    exact ⟨rfl, rfl, fun h => absurd h hcode, List.prefix_append _ _⟩
  · obtain ⟨-, -, -, hq⟩ := classify_take hc
    have hcp : classify Config.phfd (bufferContent Config.phfd s ++ p) = .take 0 :=
      classify_append_of_eq p hc nofun
    rw [StreamOutcome.after_of_no_frame rfl, outcomeFrom_latchFailure, outcomeFrom_of_not_faulted hf,
      streamFrames_of_empty hcp, bufferContent_consume, List.drop_append_of_le_length hq]
    exact ⟨rfl, rfl, fun h => absurd h (by simp), List.prefix_append _ _⟩
  · obtain ⟨hlength, -, -⟩ := isPacket_take hc
    obtain ⟨-, -, -, hq⟩ := classify_take hc
    have hcp : classify Config.phfd (bufferContent Config.phfd s ++ p) = .take (n + 1) :=
      classify_append_of_eq p hc nofun
    have hframe : (bufferContent Config.phfd s).take (4 + (n + 1)) ≠ [] := List.ne_nil_of_length_pos (by omega)
    rw [StreamOutcome.after_of_frame hframe, outcomeFrom_of_not_faulted (s := consume _ _ _) hf,
      outcomeFrom_of_not_faulted hf, streamFrames_of_take hcp, bufferContent_consume, List.drop_append_of_le_length hq,
      List.take_append_of_le_length hq]
    exact .refl _

theorem pushedBytes_cons (i : Instr) (is : List Instr) : pushedBytes (i :: is) = pushedBytes [i] ++ pushedBytes is := by
  cases i <;> rfl

/-- One command but CLEAR, not answered FULL: what is ahead before it is its frame and what is ahead after it. -/
theorem outcomeFrom_exec {i : Instr} {s t : State} {r : Response} (hs : Inv Config.phfd s) (hi : i ≠ .clear)
    (ht : exec i s = .next t) (hr : t.out = s.out ++ [r]) (hst : r.st ≠ 0x2) (p : List Byte) :
    (outcomeFrom s (pushedBytes [i] ++ p)).MatchedBy ((outcomeFrom t p).after [r]) := by
  rcases exec_cases ht with ⟨hstateless, st, rn, rw, rfl⟩ | ⟨d, rfl, rfl⟩ | ⟨rfl, rfl⟩ | ⟨rfl, -⟩
  · obtain rfl := response_unique rfl hr
    have hnone : pushedBytes [i] = [] := by cases i <;> cases hstateless <;> rfl
    rw [hnone, StreamOutcome.after_of_no_frame rfl]
    exact .refl _
  · obtain ⟨hframe, heq⟩ := outcomeFrom_push hs hr hst p
    rw [StreamOutcome.after_of_no_frame hframe, heq]
    exact .refl _
  · exact outcomeFrom_pull hr p
  · exact absurd rfl hi

/-- The same of a run: what is ahead before it is the frames it delivers and what is ahead after it. -/
theorem outcomeFrom_runCommands {cmds : List Instr} {s t : State} {rs : List Response} (hs : Inv Config.phfd s)
    (hc : ∀ i ∈ cmds, i ≠ .clear) (hrun : runCommands cmds s = .next t) (hout : t.out = s.out ++ rs)
    (hst : ∀ r ∈ rs, r.st ≠ 0x2) : (outcomeFrom s (pushedBytes cmds)).MatchedBy ((outcomeFrom t []).after rs) := by
  induction cmds generalizing s rs with
  | nil =>
    cases hrun
    rw [List.self_eq_append_right.mp hout]
    exact .refl _
  | cons i is ih =>
    obtain ⟨hi, his⟩ := List.forall_mem_cons.mp hc
    obtain ⟨u, r, rs', hu, hr, hrun', hout', rfl⟩ := runCommands_cons_out hrun hout
    obtain ⟨hr2, hrs2⟩ := List.forall_mem_cons.mp hst
    rw [pushedBytes_cons, ← List.singleton_append (l := rs'), ← StreamOutcome.after_after]
    exact (outcomeFrom_exec hs hi hu hr hr2 _).trans ((ih (hs.exec hu) his hrun' hout' hrs2).after [r])

/-- After a PULL that is not answered OK nothing more is ahead of what Q holds: the answer stays. -/
theorem outcomeFrom_pull_not_ok {s : State} {r : Response} (hr : (pull Config.phfd s).out = s.out ++ [r])
    (hst : r.st ≠ 0x0) :
    outcomeFrom (pull Config.phfd s) [] = ⟨[], r.st, bufferContent Config.phfd (pull Config.phfd s)⟩ := by
  rcases pull_cases Config.phfd s with ⟨hf, e⟩ | ⟨hf, hc, e⟩ | ⟨code, -, -, e⟩ | ⟨-, -, e⟩ | ⟨n, -, -, e⟩ <;>
    rw [e] at hr ⊢ <;> obtain rfl := response_unique rfl hr <;> rw [outcomeFrom_respond, bufferContent_respond]
  · exact outcomeFrom_of_faulted hf []
  · rw [outcomeFrom_of_not_faulted hf, List.append_nil, streamFrames_of_noPacket hc]
  · rfl
  · rfl
  · exact absurd rfl hst

/-- Settles O37: the run keeps what is ahead of the framer matched (`outcomeFrom_runCommands`), from the whole stream at an empty
Q to nothing after the last PULL. -/
theorem fragmentationInvariance : Obligations.FragmentationInvariance := by
  intro cmds s t rs last hs hf hempty hc hrun hout hfull hlast
  have hnil : bufferContent Config.phfd s = [] := List.length_eq_zero_iff.mp (by rw [bufferContent_length, hempty])
  obtain ⟨v, hcmds, hpull⟩ := runCommands_split cmds [.pull] hrun
  cases hpull
  obtain ⟨rs', hv, -⟩ := runCommands_out hcmds
  obtain ⟨⟨r, hr⟩, -⟩ := pull_interface Config.phfd v
  have hsame : s.out ++ rs ++ [last] = s.out ++ rs' ++ [r] := by rw [← hout, ← hv, ← hr]
  obtain ⟨hrs, hanswer⟩ := List.append_inj' hsame rfl
  obtain rfl : rs = rs' := List.append_cancel_left hrs
  obtain rfl : last = r := List.singleton_inj.mp hanswer
  have hstream := (outcomeFrom_runCommands hs hc hcmds hv hfull).trans ((outcomeFrom_pull hr []).after rs)
  rw [outcomeFrom_of_not_faulted hf, hnil, List.nil_append, outcomeFrom_pull_not_ok hr hlast,
    StreamOutcome.after_after] at hstream
  obtain ⟨hframes, hrest⟩ := hstream
  exact ⟨(List.append_nil _).symm.trans hframes, hrest⟩

end Sys2Proof.Machine
end

section
/-! PROOFS. The family of 42_control.md: NOP, STATUS, CLEAR (R140 to R142), and the answer to an illegal word (R143). -/

namespace Sys2Proof.Machine

/-- A row whose mask leaves no bit free has one word: what fits it is the instruction's own word (R63). -/
theorem decode_of_fullMask {w v : Word} {i : Instr} (hi : encode i = v) (h : w &&& 0xFFFF_FFFF_FFFF_FFFF = v) :
    decode w = some i := by
  have hw : w = v := BitVec.and_allOnes.symm.trans h
  exact decode_eq_some_iff.mpr (hw.trans hi.symm)

/-- Every instruction's row stands in the opcode map. -/
theorem row_mem_opcodeRows (i : Instr) : i.row ∈ opcodeRows := by
  cases i <;> simp [opcodeRows, Instr.row]

/-- A word that no row of the opcode map selects decodes to nothing (R63). -/
theorem decode_of_no_row {w : Word} (h : ∀ r ∈ opcodeRows, w &&& r.mask ≠ r.value) : decode w = none := by
  refine Option.eq_none_iff_forall_ne_some.mpr fun i hi => h i.row (row_mem_opcodeRows i) ?_
  obtain ⟨hrow, -⟩ := decodeSelectsTheOneMatchingRow w
  exact hrow i hi

/-- Settles O2: the word decodes to nothing, and performing it then only answers ILLEGAL. -/
theorem stepAnswersIllegalWord : Obligations.StepAnswersIllegalWord := by
  intro s w rest hin hrows
  rw [step_command hin, perform, decode_of_no_row hrows]
  rfl

/-- Settles O16: the row has one word, and NOP is its response alone. -/
theorem nopOnlyAnswersOk : Obligations.NopOnlyAnswersOk :=
  ⟨fun _ hw => decode_of_fullMask (by decide) hw, fun _ => rfl⟩

/-- Settles O17: the row has one word, and the STATUS word's number is `statusWord_toNat`, with READY read by `ready_iff`. -/
theorem statusReportsCountAndFlags : Obligations.StatusReportsCountAndFlags := by
  refine ⟨fun w hw => decode_of_fullMask (by decide) hw, fun s => ⟨statusWord Config.phfd s, rfl, ?_⟩⟩
  rw [statusWord_toNat, Bool.toNat, Bool.toNat, Bool.cond_eq_ite, Bool.cond_eq_ite]
  simp only [ready_iff]

/-- CLEAR is the only command that leaves the FAULTED state (R142). -/
theorem eq_clear_of_leaves_faulted {i : Instr} {s t : State} (h : exec i s = .next t) (hs : s.faulted = true)
    (ht : t.faulted = false) : i = .clear := by
  rcases exec_flags h with ⟨hsame, -⟩ | ⟨-, hf⟩ | ⟨hi, -⟩
  · simp [hs, ht] at hsame
  · simp [hs] at hf
  · exact hi

/-- Settles O19: the row has one word, only CLEAR leaves FAULTED, and the elements CLEAR zeroes are zero before a second one. -/
theorem clearStartsAFreshFramer : Obligations.ClearStartsAFreshFramer := by
  refine ⟨fun w hw => decode_of_fullMask (by decide) hw, fun i s t => eq_clear_of_leaves_faulted, fun s => ?_⟩
  refine ⟨respond 0x0 0 0 [] (restart s), rfl, rfl, ?_, _, rfl, ?_⟩
  · rw [bufferContent_respond, bufferContent_restart]
  · exact ⟨rfl, rfl, rfl, rfl, rfl⟩

end Sys2Proof.Machine
end

section
/-! PROOFS. The family of 60_exceptions.md: every offered event is taken in one step, and nothing else is a step (R164, R185). -/

namespace Sys2Proof.Machine

/-- Performing a word, legal or not, always answers a next state and takes no further event (R164, R185). -/
theorem perform_next (w : Word) (s : State) : ∃ t, perform w s = .next t ∧ t.input = s.input := by
  rcases perform_cases w s with ⟨i, -, hperform⟩ | ⟨-, hperform⟩
  · obtain ⟨t, hexec⟩ := exec_next i s
    obtain ⟨-, hinput⟩ := exec_interface hexec
    exact ⟨t, hperform.trans hexec, hinput⟩
  · exact ⟨_, hperform, respond_input _ _ _ _ s⟩

/-- With no event offered there is no step (R164). -/
theorem step_idle {s : State} (h : s.input = []) : step s = .refused .idle := by
  rw [step, nextEvent_nil h]

/-- Settles O3: by the event at the head of the input; a command is performed whole, and a reset is always taken. -/
theorem offeredEventIsTakenIdleHasNoStep : Obligations.OfferedEventIsTakenIdleHasNoStep := by
  refine fun s => ⟨step_idle, fun e rest hin => ?_⟩
  cases e with
  | command w =>
    obtain ⟨t, hperform, hinput⟩ := perform_next w { s with input := rest }
    exact ⟨t, (step_command hin).trans hperform, hinput⟩
  | reset draw => exact ⟨_, step_reset hin, takeReset_input _ draw _⟩
  | resetDuring w draw => exact ⟨_, step_resetDuring hin, takeReset_input _ draw _⟩

end Sys2Proof.Machine
end

section
/-! PROOFS. The family of 70_reset_and_hazards.md: a reset that overtakes a command is that reset alone (R182). -/

namespace Sys2Proof.Machine

/-- A reset that overtakes a command makes the step the reset alone makes: nothing of the command word is left (R182). -/
theorem step_resetDuring_eq_step_reset {s : State} {w : Word} {draw : List Host.Cell} {rest : List HostEvent}
    (h : s.input = .resetDuring w draw :: rest) : step s = step { s with input := .reset draw :: rest } := by
  rw [step_resetDuring h, step_reset (s := { s with input := .reset draw :: rest }) rfl]

/-- Settles O14: the step is the reset's, and `takeReset` zeroes HEAD, COUNT, FAULTED and ERR and appends no response. -/
theorem resetOvertakesACommand : Obligations.ResetOvertakesACommand := by
  intro s w draw rest hin
  refine ⟨step_resetDuring_eq_step_reset hin, _, step_resetDuring hin, ?_⟩
  exact ⟨takeReset_head _ _ _, takeReset_count _ _ _, takeReset_faulted _ _ _, takeReset_err _ _ _, takeReset_out _ _ _⟩

end Sys2Proof.Machine
end
